-- ==== Sys2Proof/Word.lean ====
section
/-! DEFINITION. The widths of the block's values (spec/10_state.md rule R22, spec/30_encoding.md rule R84).
All quantities are unsigned; nothing is sign-extended (spec/00_scope.md rule R6). -/

namespace Sys2Proof

/-- A 64-bit command word (R80). -/
abbrev CmdWord := BitVec 64

/-- What `readReg` returns (R40). -/
abbrev HostWord := BitVec 32

/-- A 24-bit colour: red [23:16], green [15:8], blue [7:0] (R31). -/
abbrev Rgb := BitVec 24

/-- A shade index 0..3 (R26). -/
abbrev Shade := BitVec 2

/-- The value of one hexadecimal digit (R23). -/
abbrev Nibble := BitVec 4

/-- An 8-bit code unit of a record (R8, R75), and one byte of a plane pair (R62). -/
abbrev CodeUnit := BitVec 8

/-- Canvas dimensions, pixel coordinates, tile coordinates and DPI: `DIM_BITS` = 16 (R5). -/
abbrev Dim := BitVec 16

/-- A scale factor: `SCALE_BITS` = 8 (R5). -/
abbrev Scale := BitVec 8

/-- A palette bank number (R28). -/
abbrev Bank := BitVec 1

/-- One palette bank: exactly four colours (R28, R173). -/
abbrev Palette := Vector Rgb 4

end Sys2Proof
end

