-- ==== Sys2Proof/Syntax.lean ====
section
/-! DEFINITION. The block's 14 commands with their operands (spec/30_encoding.md rules R83 to R85), and a
line of assembler text after its words are read (rule R91). Each operand has the width of its
field (R84), so a term of `Instr` is a command the encoding can hold. -/

namespace Sys2Proof

/-- One constructor per row of spec/opcode_table.json (R85). -/
inductive Instr where
  /-- NOP (R170). -/
  | nop
  /-- REC_BEGIN (R100). -/
  | recBegin
  /-- REC_CHAR `ch` (R101). -/
  | recChar (ch : CodeUnit)
  /-- REC_END (R103). -/
  | recEnd
  /-- RDSHADE `idx` (R110). -/
  | rdshade (idx : BitVec 6)
  /-- ALLOC `w, h` (R131). -/
  | alloc (w h : Dim)
  /-- FILL `rgb` (R133). -/
  | fill (rgb : Rgb)
  /-- PAINT `bank, col, row, sx, sy` (R134). -/
  | paint (bank : Bank) (col row : Dim) (sx sy : Scale)
  /-- REPLACE `old, new` (R140). -/
  | replace (old new : Rgb)
  /-- MATERIALIZE `dpiX, dpiY` (R148). -/
  | materialize (dpiX dpiY : Dim)
  /-- RDPIX `x, y` (R151). -/
  | rdpix (x y : Dim)
  /-- SETPAL `bank, idx, rgb` (R172). -/
  | setpal (bank : Bank) (idx : Shade) (rgb : Rgb)
  /-- RDPAL `bank, idx` (R174). -/
  | rdpal (bank : Bank) (idx : Shade)
  /-- CLRERR `mask` (R176). -/
  | clrerr (mask : BitVec 6)
  deriving DecidableEq, Repr

/-- The mnemonics of the opcode map (R85). -/
inductive Mnemonic where
  | nop | recBegin | recChar | recEnd | rdshade
  | alloc | fill | paint | replace | materialize | rdpix
  | setpal | rdpal | clrerr
  deriving DecidableEq, Repr

/-- One assembler command: a mnemonic and its operands as the numbers that were written, before it
is known that they fit their fields (R91). -/
structure AsmCommand where
  mnemonic : Mnemonic
  operands : List Nat
  deriving DecidableEq, Repr

/-- The mnemonic of a command. -/
def Instr.mnemonic : Instr → Mnemonic
  | .nop => .nop
  | .recBegin => .recBegin
  | .recChar _ => .recChar
  | .recEnd => .recEnd
  | .rdshade _ => .rdshade
  | .alloc _ _ => .alloc
  | .fill _ => .fill
  | .paint _ _ _ _ _ => .paint
  | .replace _ _ => .replace
  | .materialize _ _ => .materialize
  | .rdpix _ _ => .rdpix
  | .setpal _ _ _ => .setpal
  | .rdpal _ _ => .rdpal
  | .clrerr _ => .clrerr

/-- The assembler command that writes a command, its operands in the order of rule R91's table. -/
def Instr.toAsm : Instr → AsmCommand
  | .nop => ⟨.nop, []⟩
  | .recBegin => ⟨.recBegin, []⟩
  | .recChar ch => ⟨.recChar, [ch.toNat]⟩
  | .recEnd => ⟨.recEnd, []⟩
  | .rdshade idx => ⟨.rdshade, [idx.toNat]⟩
  | .alloc w h => ⟨.alloc, [w.toNat, h.toNat]⟩
  | .fill rgb => ⟨.fill, [rgb.toNat]⟩
  | .paint bank col row sx sy => ⟨.paint, [bank.toNat, col.toNat, row.toNat, sx.toNat, sy.toNat]⟩
  | .replace old new => ⟨.replace, [old.toNat, new.toNat]⟩
  | .materialize dpiX dpiY => ⟨.materialize, [dpiX.toNat, dpiY.toNat]⟩
  | .rdpix x y => ⟨.rdpix, [x.toNat, y.toNat]⟩
  | .setpal bank idx rgb => ⟨.setpal, [bank.toNat, idx.toNat, rgb.toNat]⟩
  | .rdpal bank idx => ⟨.rdpal, [bank.toNat, idx.toNat]⟩
  | .clrerr mask => ⟨.clrerr, [mask.toNat]⟩

end Sys2Proof
end

