-- ==== Sys2Proof/WellFormed.lean ====
section
/-! DEFINITION. Which assembler commands are well formed: the number of operands of rule R91's table, and
every operand inside the width its field has (rule R84). A term of `Instr` is well formed by its
type, since each operand already has its field's width; so the checks stand on `AsmCommand`. -/

namespace Sys2Proof

/-- The widths in bits of a mnemonic's operands, in the order of rule R91's table (R84). -/
def Mnemonic.operandWidths : Mnemonic → List Nat
  | .nop | .recBegin | .recEnd => []
  | .recChar => [8]
  | .rdshade | .clrerr => [6]
  | .alloc | .materialize | .rdpix => [16, 16]
  | .fill => [24]
  | .paint => [1, 16, 16, 8, 8]
  | .replace => [24, 24]
  | .setpal => [1, 2, 24]
  | .rdpal => [1, 2]

/-- The operand count of rule R91. -/
def AsmCommand.countOk (c : AsmCommand) : Bool :=
  c.operands.length == c.mnemonic.operandWidths.length

/-- Each operand fits its field (R84). DESIGN CHOICE: a number that does not fit is refused and never
cut off (notes/assumptions/13.md). -/
def AsmCommand.widthsOk (c : AsmCommand) : Bool :=
  (c.operands.zip c.mnemonic.operandWidths).all fun p => decide (p.1 < 2 ^ p.2)

/-- A well-formed assembler command. -/
def AsmCommand.wellFormed (c : AsmCommand) : Bool := c.countOk && c.widthsOk

/-- A command is well formed when the assembler command that writes it is. -/
def Instr.wellFormed (i : Instr) : Bool := i.toAsm.wellFormed

end Sys2Proof
end

