-- ==== Sys2Proof/Decode.lean ====
section
/-! DEFINITION. The decoder of spec/30_encoding.md rules R85 to R89 and, after it, the encoder of rules R81
to R83. A command word is one 64-bit value (R80): the host hands over the value, not bytes
(R62, decision D31), so no byte order enters. -/

namespace Sys2Proof

/-- Why a word is no command. The sequencer executes both kinds as ILLEGAL (R87). -/
inductive Reject where
  /-- The opcode byte is none of the 14 assigned ones (R87). -/
  | unassignedOpcode (op : BitVec 8)
  /-- The opcode is assigned but a bit its format reserves is 1 (R86). -/
  | reservedBits (op : BitVec 8)
  deriving DecidableEq, Repr

/-- One row of the opcode map (R85). -/
structure OpcodeRow where
  mnemonic  : Mnemonic
  matchBits : CmdWord
  mask      : CmdWord
  deriving DecidableEq, Repr

/-- The opcode map, its 14 rows in rule R85's order. -/
def opcodeTable : List OpcodeRow :=
  [ ⟨.nop,         0x0000000000000000, 0xFFFFFFFFFFFFFFFF⟩,
    ⟨.recBegin,    0x0100000000000000, 0xFFFFFFFFFFFFFFFF⟩,
    ⟨.recChar,     0x0200000000000000, 0xFFFFFFFFFFFFFF00⟩,
    ⟨.recEnd,      0x0300000000000000, 0xFFFFFFFFFFFFFFFF⟩,
    ⟨.rdshade,     0x0400000000000000, 0xFFFFFFFFFFFFFFC0⟩,
    ⟨.alloc,       0x1000000000000000, 0xFFFFFFFF00000000⟩,
    ⟨.fill,        0x1100000000000000, 0xFFFFFFFFFF000000⟩,
    ⟨.paint,       0x1200000000000000, 0xFFFE000000000000⟩,
    ⟨.replace,     0x1300000000000000, 0xFFFF000000000000⟩,
    ⟨.materialize, 0x1400000000000000, 0xFFFFFFFF00000000⟩,
    ⟨.rdpix,       0x1500000000000000, 0xFFFFFFFF00000000⟩,
    ⟨.setpal,      0x2000000000000000, 0xFFFEFFFCFF000000⟩,
    ⟨.rdpal,       0x2100000000000000, 0xFFFEFFFCFFFFFFFF⟩,
    ⟨.clrerr,      0x3000000000000000, 0xFFFFFFFFFFFFFFC0⟩ ]

/-- A word is the row's command when the masked word equals the row's match bits (R85). -/
def OpcodeRow.accepts (r : OpcodeRow) (w : CmdWord) : Bool := w &&& r.mask == r.matchBits

/-- The opcode byte, bits [63:56] (R81). -/
def opcodeOf (w : CmdWord) : BitVec 8 := w.extractLsb' 56 8

/-- The fields of the mnemonic's format, read from the bit positions of rule R83. -/
def readFields (m : Mnemonic) (w : CmdWord) : Instr :=
  match m with
  | .nop => .nop
  | .recBegin => .recBegin
  | .recChar => .recChar (w.extractLsb' 0 8)
  | .recEnd => .recEnd
  | .rdshade => .rdshade (w.extractLsb' 0 6)
  | .alloc => .alloc (w.extractLsb' 16 16) (w.extractLsb' 0 16)
  | .fill => .fill (w.extractLsb' 0 24)
  | .paint =>
    .paint (w.extractLsb' 48 1) (w.extractLsb' 32 16) (w.extractLsb' 16 16)
      (w.extractLsb' 8 8) (w.extractLsb' 0 8)
  | .replace => .replace (w.extractLsb' 24 24) (w.extractLsb' 0 24)
  | .materialize => .materialize (w.extractLsb' 16 16) (w.extractLsb' 0 16)
  | .rdpix => .rdpix (w.extractLsb' 16 16) (w.extractLsb' 0 16)
  | .setpal => .setpal (w.extractLsb' 48 1) (w.extractLsb' 32 2) (w.extractLsb' 0 24)
  | .rdpal => .rdpal (w.extractLsb' 48 1) (w.extractLsb' 32 2)
  | .clrerr => .clrerr (w.extractLsb' 0 6)

/-- The name of the reason a word that matches no row is rejected (R86, R87). -/
def rejectReason (w : CmdWord) : Reject :=
  if opcodeTable.any (fun r => opcodeOf r.matchBits == opcodeOf w) then
    .reservedBits (opcodeOf w)
  else
    .unassignedOpcode (opcodeOf w)

/-- `decode` (R89), total on every word: the first row that accepts it, else a named rejection. -/
def decode (w : CmdWord) : Except Reject Instr :=
  match opcodeTable.find? (fun r => r.accepts w) with
  | some r => .ok (readFields r.mnemonic w)
  | none => .error (rejectReason w)

/-- A field at bit position `lo` of an otherwise zero word (R83). -/
def place (lo : Nat) {n : Nat} (v : BitVec n) : CmdWord := v.setWidth 64 <<< lo

/-- The word of a command: the opcode in [63:56] (R81), each field at rule R83's position, and every
reserved bit 0 (R86). -/
def encode : Instr → CmdWord
  | .nop => place 56 0x00#8
  | .recBegin => place 56 0x01#8
  | .recChar ch => place 56 0x02#8 ||| place 0 ch
  | .recEnd => place 56 0x03#8
  | .rdshade idx => place 56 0x04#8 ||| place 0 idx
  | .alloc w h => place 56 0x10#8 ||| place 16 w ||| place 0 h
  | .fill rgb => place 56 0x11#8 ||| place 0 rgb
  | .paint bank col row sx sy =>
    place 56 0x12#8 ||| place 48 bank ||| place 32 col ||| place 16 row ||| place 8 sx ||| place 0 sy
  | .replace old new => place 56 0x13#8 ||| place 24 old ||| place 0 new
  | .materialize dpiX dpiY => place 56 0x14#8 ||| place 16 dpiX ||| place 0 dpiY
  | .rdpix x y => place 56 0x15#8 ||| place 16 x ||| place 0 y
  | .setpal bank idx rgb => place 56 0x20#8 ||| place 48 bank ||| place 32 idx ||| place 0 rgb
  | .rdpal bank idx => place 56 0x21#8 ||| place 48 bank ||| place 32 idx
  | .clrerr mask => place 56 0x30#8 ||| place 0 mask

/-- The host's numbering of an instruction's bits is the command word's own (one 64-bit word, bit 0
least significant); `nbits` beyond 64 names no word of this block (R80). -/
def decodeTableWord (nbits w : Nat) : Option Instr :=
  if nbits ≤ 64 then
    match decode (BitVec.ofNat 64 (w % 2 ^ nbits)) with
    | .ok i => some i
    | .error _ => none
  else
    none

end Sys2Proof
end

