-- ==== Sys2Proof/Config.lean ====
section
/-! DEFINITION. The parameters of spec/00_scope.md rule R5 and the free values of the model.
Every `OPEN` parameter is a constant without a body, so no proof can see its value. -/

namespace Sys2Proof

/-- The block's `OPEN` parameters (R5). A machine carries them unchanged in its state
(notes/assumptions/1.md), so a statement about every state holds for every choice of them. -/
structure Params where
  /-- `FB_MAX_PIXELS`: how many pixels the framebuffer store holds (R30). -/
  fbMaxPixels  : Nat
  /-- `PALETTE_GRAY`: the reset value of palette bank 0 (R28). -/
  paletteGray  : Palette
  /-- `PALETTE_GREEN`: the reset value of palette bank 1 (R28). -/
  paletteGreen : Palette
  deriving DecidableEq, Repr

/-- `FB_MAX_PIXELS`, `OPEN` (R5, N7): not in the source. -/
opaque Config.fbMaxPixels : Nat

/-- `PALETTE_GRAY`, `OPEN` (R5, N3): not in the source. -/
opaque Config.paletteGray : Palette

/-- `PALETTE_GREEN`, `OPEN` (R5, N3): not in the source. -/
opaque Config.paletteGreen : Palette

/-- The `OPEN` parameters of the machine that `State.reset` describes. -/
def Config.params : Params :=
  { fbMaxPixels := Config.fbMaxPixels
    paletteGray := Config.paletteGray
    paletteGreen := Config.paletteGreen }

/-- `draw()` (R7): the free value of the `n`-th read of an `Undef` pixel (R34, R152). It has no
body: nothing constrains a drawn colour, and two draws need not agree (notes/assumptions/2.md). -/
opaque Config.draw : Nat → Rgb

/-- The reference host's parameters (R5). The defaults are the source's literals; the DPI values
are `OPEN` and so are arguments without a default. -/
structure HostParams where
  /-- `TILES_PER_ROW`. -/
  tilesPerRow : Nat := 20
  /-- `TARGET_WIDTH`, in device pixels. -/
  targetWidth : Nat := 480
  /-- `FILL_SHADE` (R197, conflict C1). -/
  fillShade   : Shade := 3
  /-- `HOST_DPI_X`. -/
  dpiX        : Dim
  /-- `HOST_DPI_Y`. -/
  dpiY        : Dim
  deriving DecidableEq, Repr

end Sys2Proof
end

