-- ==== Sys2Proof/Machine/State.lean ====
section
/-! DEFINITION. The block's complete state (spec/10_state.md rule R22), the agents' moves that stand around
it (rules R10, R40, R41, R240), and the state after reset (rule R48). -/

namespace Sys2Proof.Machine

/-- The value of an existing pixel (R34): `undef` until FILL or PAINT writes it. -/
inductive Pixel where
  | undef
  | defined (rgb : Rgb)
  deriving DecidableEq, Repr

/-- The framebuffer store (R22, R61): the `Defined` pixels as pairs of linear pixel address
`y × CANVAS_W + x` and colour, addresses strictly rising. An address that is not listed reads
`Undef`. No space of the block is byte-addressable, so a cell is one 24-bit pixel (R62, R65). -/
abbrev Memory := List (Nat × Rgb)

/-- One atomic event outside or inside the block (R217): what an agent does when it moves. -/
inductive Event where
  /-- The host hands a word to the command port (R40). -/
  | issue (w : CmdWord)
  /-- The host reads host register `n` (R40). -/
  | readReg (n : Nat)
  /-- The sequencer takes its step if a command is pending (R41). -/
  | sequencer
  /-- The external reset event (R240). -/
  | reset
  deriving DecidableEq, Repr

/-- Reasons for the machine to stop with a fault: there is none. Every command completes (R210),
errors are recorded in `LAST_CODE` and `ERRSTAT` (R230), and no state refuses further commands
(R223). The type has no constructor, so no step of the model can end in a fault. Safe. -/
inductive Fault where
  deriving DecidableEq, Repr

/-- Reasons for the model to give a step no meaning. -/
inductive Refusal where
  /-- An instruction that has no meaning in the model yet; raised by arms of `exec` only. No arm
  raises it. Safe: nothing is claimed of such an instruction. -/
  | notModelled (mnemonic : String)
  /-- `readReg n` with `n ≥ 7`, raised by the host's move: rule R45 says that a model refuses it.
  Safe: nothing is claimed of such a host program. -/
  | readRegUnmapped (n : Nat)
  deriving DecidableEq, Repr

/-- The state. The fields up to `cmdReg` are rule R22's table, row by row; the last four are the
model's own (notes/assumptions/1.md, 2.md and 3.md). -/
structure State where
  /-- `REC_NIB[0..31]` (R23). -/
  recNib    : Vector Nibble 32
  /-- `REC_LEN`, saturating at 63 (R24). -/
  recLen    : BitVec 6
  /-- `REC_NONHEX` (R25). -/
  recNonhex : Bool
  /-- `TILE[0..63]`, row-major (R26). -/
  tile      : Vector Shade 64
  /-- `TILE_VALID` (R27). -/
  tileValid : Bool
  /-- `PAL[0..1][0..3]` (R28). -/
  pal       : Vector Palette 2
  /-- `CANVAS_W` (R29). -/
  canvasW   : Dim
  /-- `CANVAS_H` (R29). -/
  canvasH   : Dim
  /-- `FB` (R30 to R34). -/
  fb        : Memory
  /-- `DPI_X` (R35). -/
  dpiX      : Dim
  /-- `DPI_Y` (R35). -/
  dpiY      : Dim
  /-- `RESULT` (R36). -/
  result    : HostWord
  /-- `LAST_CODE` (R37). -/
  lastCode  : BitVec 4
  /-- `ERRSTAT`: bit 0 ILLEGAL, 1 BADARG, 2 BADDIM, 3 OOB, 4 NOTILE, 5 OVERRUN (R38). -/
  errstat   : BitVec 6
  /-- `CMDREG`: the issued command not yet executed (R39). -/
  cmdReg    : Option CmdWord
  /-- Model's own: the machine's `OPEN` parameters; no step writes them. -/
  params    : Params
  /-- Model's own: how many free values have been drawn (R34). -/
  draws     : Nat
  /-- Model's own: the moves the agents will make, the next one first (R217). -/
  schedule  : List Event
  /-- Model's own: the words the host has read by `readReg`, the newest first (R40). -/
  observed  : List HostWord
  deriving DecidableEq, Repr

/-- The state after reset of a machine with the given `OPEN` parameters (R48). `REC_NIB` and `TILE`
are unspecified there and never read before written; the model names 0 for them
(notes/assumptions/4.md). -/
def State.resetWith (p : Params) : State :=
  { recNib := Vector.replicate 32 0
    recLen := 0
    recNonhex := false
    tile := Vector.replicate 64 0
    tileValid := false
    pal := #v[p.paletteGray, p.paletteGreen]
    canvasW := 0
    canvasH := 0
    fb := []
    dpiX := 0
    dpiY := 0
    result := 0
    lastCode := 0
    errstat := 0
    cmdReg := none
    params := p
    draws := 0
    schedule := []
    observed := [] }

/-- The machine right after reset (R48), with the parameters no proof can see. -/
def State.reset : State := State.resetWith Config.params

end Sys2Proof.Machine
end

