-- ==== Sys2Proof/Machine/Flags.lean ====
section
/-! DEFINITION. Result codes, the sticky error bits, and the host registers' layouts (spec/10_state.md rules
R37 to R45, spec/60_exceptions.md rules R211 and R222). The block has no arithmetic condition
codes (R47). -/

namespace Sys2Proof.Machine

/-- The result codes of rule R211's table; codes 8 to 15 are never produced. -/
inductive ResultCode where
  | ok | recBadlen | recNonhex | notile | oob | badarg | baddim | illegal
  deriving DecidableEq, Repr

/-- The code's number in `LAST_CODE` (R211). -/
def ResultCode.bits : ResultCode → BitVec 4
  | .ok => 0
  | .recBadlen => 1
  | .recNonhex => 2
  | .notile => 3
  | .oob => 4
  | .badarg => 5
  | .baddim => 6
  | .illegal => 7

/-- The programming errors a command can raise (R211, R213). -/
inductive ErrorKind where
  | illegal | badarg | baddim | oob | notile
  deriving DecidableEq, Repr

/-- The result code of an error (R211). -/
def ErrorKind.code : ErrorKind → ResultCode
  | .illegal => .illegal
  | .badarg => .badarg
  | .baddim => .baddim
  | .oob => .oob
  | .notile => .notile

/-- The `ERRSTAT` bit of an error, as the word with only that bit set (R38). -/
def ErrorKind.stickyBit : ErrorKind → BitVec 6
  | .illegal => 0b000001
  | .badarg => 0b000010
  | .baddim => 0b000100
  | .oob => 0b001000
  | .notile => 0b010000

/-- `ERRSTAT.OVERRUN`, bit 5, which `issue` raises and no command does (R38, R215). -/
def overrunBit : BitVec 6 := 0b100000

/-- `BUSY` (R39). -/
def State.busy (s : State) : Bool := s.cmdReg.isSome

/-- `ERR_ANY`: a view of `ERRSTAT`, not separate state (R222). -/
def State.errAny (s : State) : Bool := s.errstat != 0

/-- `STATUS`, host register 0 (R42): reserved [31:15], `REC_NONHEX` 14, `REC_LEN` [13:8],
`LAST_CODE` [7:4], reserved 3, `ERR_ANY` 2, `BUSY` 1, `TILE_VALID` 0. -/
def statusReg (s : State) : HostWord :=
  0#17 ++ BitVec.ofBool s.recNonhex ++ s.recLen ++ s.lastCode ++ 0#1 ++
    BitVec.ofBool s.errAny ++ BitVec.ofBool s.busy ++ BitVec.ofBool s.tileValid

/-- `ERRSTAT`, host register 1 (R43). -/
def errstatReg (s : State) : HostWord := s.errstat.setWidth 32

/-- The content of host register `n` (R40, R42 to R44); none for `n ≥ 7` (R45). -/
def hostReg (n : Nat) (s : State) : Option HostWord :=
  match n with
  | 0 => some (statusReg s)
  | 1 => some (errstatReg s)
  | 2 => some s.result
  | 3 => some (s.canvasW.setWidth 32)
  | 4 => some (s.canvasH.setWidth 32)
  | 5 => some (s.dpiX.setWidth 32)
  | 6 => some (s.dpiY.setWidth 32)
  | _ => none

end Sys2Proof.Machine
end

