-- ==== Sys2Proof/Machine/Operands.lean ====
section
/-! DEFINITION. The operand computations of the commands: character functions (spec/00_scope.md rule R8),
record bytes and the planar unpack (spec/40_tile_decoder.md rules R103 and R106), palette entries
(spec/10_state.md rule R28) and PAINT's geometry (spec/41_canvas_compositor.md rules R134 and
R135). -/

namespace Sys2Proof.Machine

/-! ### Characters (R8) -/

/-- `isStrip`: space or carriage return, and nothing else (R8, conflict C8). -/
def isStrip (ch : CodeUnit) : Bool := ch == 0x20 || ch == 0x0D

/-- '0'..'9' (R8). -/
def isDigit (ch : CodeUnit) : Bool := 0x30 ≤ ch && ch ≤ 0x39

/-- 'A'..'F' (R8). -/
def isUpperHex (ch : CodeUnit) : Bool := 0x41 ≤ ch && ch ≤ 0x46

/-- 'a'..'f' (R8). -/
def isLowerHex (ch : CodeUnit) : Bool := 0x61 ≤ ch && ch ≤ 0x66

/-- `isHex` (R8). -/
def isHex (ch : CodeUnit) : Bool := isDigit ch || isUpperHex ch || isLowerHex ch

/-- `hexval`: the digit's value, 0 for a character that is no digit (R8). -/
def hexval (ch : CodeUnit) : Nibble :=
  if isDigit ch then (ch - 0x30).setWidth 4
  else if isUpperHex ch then (ch - 0x41 + 10).setWidth 4
  else if isLowerHex ch then (ch - 0x61 + 10).setWidth 4
  else 0

/-- `min(REC_LEN + 1, 63)` (R24). -/
def satSucc (n : BitVec 6) : BitVec 6 := BitVec.ofNat 6 (min (n.toNat + 1) 63)

/-- `REC_NIB[REC_LEN] <- v` when `REC_LEN < 32`; a later kept character is not stored (R101). -/
def storeNibble (nib : Vector Nibble 32) (len : BitVec 6) (v : Nibble) : Vector Nibble 32 :=
  if h : len.toNat < 32 then nib.set len.toNat v h else nib

/-! ### The planar unpack (R103, R106) -/

/-- `byte[k] = REC_NIB[2k] × 16 + REC_NIB[2k+1]`: the first digit is the high nibble (R62). -/
def recordByte (nib : Vector Nibble 32) (k : Fin 16) : CodeUnit :=
  (nib.get ⟨2 * k.val, by omega⟩).setWidth 8 * 16 + (nib.get ⟨2 * k.val + 1, by omega⟩).setWidth 8

/-- The shade of row `j`, column `i`: bit `7 − i` of the high-plane byte `byte[2j+1]` above bit
`7 − i` of the low-plane byte `byte[2j]` (R106, R63). -/
def planeShade (nib : Vector Nibble 32) (j i : Fin 8) : Shade :=
  let lo := recordByte nib ⟨2 * j.val, by omega⟩
  let hi := recordByte nib ⟨2 * j.val + 1, by omega⟩
  BitVec.ofBool (hi.getLsbD (7 - i.val)) ++ BitVec.ofBool (lo.getLsbD (7 - i.val))

/-- All 64 shades, `index = row × 8 + column` (R26, R103). -/
def unpackTile (nib : Vector Nibble 32) : Vector Shade 64 :=
  Vector.ofFn fun n : Fin 64 => planeShade nib ⟨n.val / 8, by omega⟩ ⟨n.val % 8, by omega⟩

/-- The tile's shade at row `r`, column `c` (R26). -/
def tileShade (tile : Vector Shade 64) (r c : Fin 8) : Shade :=
  tile.get ⟨r.val * 8 + c.val, by omega⟩

/-! ### The palette (R28) -/

/-- `p[i]` of one bank. -/
def paletteEntry (p : Palette) (idx : Shade) : Rgb := p.get idx.toFin

/-- `PAL[bank][idx]` (R28). -/
def palEntry (pal : Vector Palette 2) (bank : Bank) (idx : Shade) : Rgb :=
  paletteEntry (pal.get bank.toFin) idx

/-- `SWAP(A,B)` (R143): the `Ak` are pairwise distinct, and `Bk ≠ An` for every `k < n`. -/
abbrev swapOk (A B : Palette) : Prop :=
  (∀ k n : Shade, k ≠ n → paletteEntry A k ≠ paletteEntry A n) ∧
    ∀ k n : Shade, k < n → paletteEntry B k ≠ paletteEntry A n

/-- `PAL[bank][idx] <- rgb` (R172). -/
def setPalEntry (pal : Vector Palette 2) (bank : Bank) (idx : Shade) (rgb : Rgb) :
    Vector Palette 2 :=
  pal.set bank.toNat ((pal.get bank.toFin).set idx.toNat rgb idx.isLt) bank.isLt

/-! ### PAINT's rectangle (R134, R135)

Sums and products are exact, on natural numbers (R6, R136). -/

/-- `x0 = col × 8 × sx`, and `y0` from `row` and `sy` alike. -/
def rectOrigin (grid : Dim) (scale : Scale) : Nat := grid.toNat * 8 * scale.toNat

/-- The rectangle's extent along one axis, `8 × sx` or `8 × sy`. -/
def rectExtent (scale : Scale) : Nat := 8 * scale.toNat

/-- Whether the destination rectangle lies wholly inside a `w × h` canvas (R136). -/
def rectInside (col row : Dim) (sx sy : Scale) (w h : Dim) : Bool :=
  decide (rectOrigin col sx + rectExtent sx ≤ w.toNat) &&
    decide (rectOrigin row sy + rectExtent sy ≤ h.toNat)

/-- One pixel write: column, row, colour. -/
structure PixelWrite where
  x   : Nat
  y   : Nat
  rgb : Rgb
  deriving DecidableEq, Repr

/-- The write of R134's innermost loop: device pixel `(dx, dy)` of the `sx × sy` block of logical
pixel `(c, r)`, in the colour `activePalette[shadeIndex]` (R135). -/
def tileWrite (tile : Vector Shade 64) (p : Palette) (col row : Dim) (sx sy : Scale)
    (r c : Fin 8) (dy dx : Nat) : PixelWrite :=
  { x := (col.toNat * 8 + c.val) * sx.toNat + dx
    y := (row.toNat * 8 + r.val) * sy.toNat + dy
    rgb := paletteEntry p (tileShade tile r c) }

/-- PAINT's writes (R134), row by row from the top and each row from the left: R134's loops with
the loop over `dy` put outside the one over `localColumn`. The blocks do not overlap (R135) and
PAINT is one atomic update (R66), so the order of the writes cannot be seen. -/
def tileWrites (tile : Vector Shade 64) (p : Palette) (col row : Dim) (sx sy : Scale) :
    List PixelWrite :=
  (List.finRange 8).flatMap fun r =>
    (List.range sy.toNat).flatMap fun dy =>
      (List.finRange 8).flatMap fun c =>
        (List.range sx.toNat).map fun dx => tileWrite tile p col row sx sy r c dy dx

end Sys2Proof.Machine
end

