-- ==== Sys2Proof/Machine/Ops.lean ====
section
/-! DEFINITION. The shared operations: the framebuffer store (spec/20_memory.md rules R60 and R61), the end
of a command (`finish`, rule R210), raising a programming error (rule R213), and the host's and the
platform's moves (rules R39, R40, R240).

The block has no trap (R220): taking an error is `raise`, and there is no return from it (R221). -/

namespace Sys2Proof.Machine

/-! ### The framebuffer store -/

/-- The pixel at linear address `a` (R61); an unlisted address reads `Undef` (R34). -/
def Memory.read (a : Nat) : Memory → Pixel
  | [] => .undef
  | (b, c) :: rest => if a = b then .defined c else Memory.read a rest

/-- Make the pixel at linear address `a` `Defined(rgb)`, keeping the addresses rising (R7, R61). -/
def Memory.write (a : Nat) (rgb : Rgb) : Memory → Memory
  | [] => [(a, rgb)]
  | (b, c) :: rest =>
    if a < b then (a, rgb) :: (b, c) :: rest
    else if a = b then (a, rgb) :: rest
    else (b, c) :: Memory.write a rgb rest

/-- The pixel at `a` made `Defined(rgb)` and then `k` applied to what lies above `a`. -/
def Memory.mergeCell (a : Nat) (rgb : Rgb) (k : Memory → Memory) : Memory → Memory
  | [] => (a, rgb) :: k []
  | (b, c) :: rest =>
    if b < a then (b, c) :: Memory.mergeCell a rgb k rest
    else if b = a then (a, rgb) :: k rest
    else (a, rgb) :: k ((b, c) :: rest)

/-- `new` written over `old` in one pass, both in canonical form: an address `new` lists takes
`new`'s colour, every other keeps its pixel. -/
def Memory.overlay : Memory → Memory → Memory
  | [], old => old
  | (a, rgb) :: new, old => Memory.mergeCell a rgb (Memory.overlay new) old

/-- The store with the addresses `0 .. n-1` all `Defined(rgb)` (R133). -/
def Memory.filled (n : Nat) (rgb : Rgb) : Memory := (List.range n).map fun a => (a, rgb)

/-- Every `Defined(old)` becomes `Defined(new)`; each pixel is visited once and `Undef` ones stay
`Undef` (R140, R141, R145). -/
def Memory.replace (old new : Rgb) (m : Memory) : Memory :=
  m.map fun p => (p.1, if p.2 = old then new else p.2)

/-- Every listed address is above `bound`, and the addresses rise strictly. -/
def Memory.risesFrom (bound : Nat) : Memory → Bool
  | [] => true
  | (a, _) :: rest => decide (bound ≤ a) && Memory.risesFrom (a + 1) rest

/-- The canonical form: addresses strictly rising. No entry can equal what an unlisted address reads
as, because a listed pixel is `Defined`; so equal framebuffers are equal lists. -/
def Memory.wf (m : Memory) : Bool := Memory.risesFrom 0 m

/-- The linear pixel address of `(x, y)` (R61). -/
def linearAddr (w : Dim) (x y : Nat) : Nat := y * w.toNat + x

/-- How many pixels the canvas has (R22). -/
def State.pixelCount (s : State) : Nat := s.canvasW.toNat * s.canvasH.toNat

/-- Whether pixel `(x, y)` exists (R33). -/
def State.hasPixel (s : State) (x y : Nat) : Bool :=
  decide (x < s.canvasW.toNat) && decide (y < s.canvasH.toNat)

/-- `FbRead(x, y)` (R7), for an existing pixel. -/
def fbRead (s : State) (x y : Nat) : Pixel := Memory.read (linearAddr s.canvasW x y) s.fb

/-- `FbWrite(x, y, rgb24)` (R7), for an existing pixel. -/
def fbWrite (x y : Nat) (rgb : Rgb) (s : State) : State :=
  { s with fb := Memory.write (linearAddr s.canvasW x y) rgb s.fb }

/-- `MemRead(a, 1)` (R61): the pixel at linear address `a < CANVAS_W × CANVAS_H`. -/
def memRead (s : State) (a : Nat) : Pixel := fbRead s (a % s.canvasW.toNat) (a / s.canvasW.toNat)

/-- `MemWrite(a, 1, v)` (R61), for `a < CANVAS_W × CANVAS_H`. -/
def memWrite (a : Nat) (rgb : Rgb) (s : State) : State :=
  fbWrite (a % s.canvasW.toNat) (a / s.canvasW.toNat) rgb s

/-! ### How a command ends -/

/-- `finish(code)` (R210): `LAST_CODE <- code`. The sequencer step then empties `CMDREG` (R41). -/
def finish (code : ResultCode) (s : State) : State := { s with lastCode := code.bits }

/-- `raise E` (R7, R213): the error's sticky bit is set, the command ends with the error's code, and
nothing else changes. -/
def raise (e : ErrorKind) (s : State) : State :=
  finish e.code { s with errstat := s.errstat ||| e.stickyBit }

/-! ### The host's and the platform's moves -/

/-- `issue(w)` (R39, R40): the word is taken when the command register is empty; otherwise it is
discarded and `ERRSTAT.OVERRUN` is set (R215). -/
def issue (w : CmdWord) (s : State) : State :=
  match s.cmdReg with
  | none => { s with cmdReg := some w }
  | some _ => { s with errstat := s.errstat ||| overrunBit }

/-- `readReg(n)` (R40): the host receives the register's value, no state element of the block changes
(R46), and `n ≥ 7` is refused (R45). -/
def readReg (n : Nat) (s : State) : Host.Outcome State Fault Refusal :=
  match hostReg n s with
  | some v => .next { s with observed := v :: s.observed }
  | none => .refused (.readRegUnmapped n)

/-- The reset event (R240): every state element of the block takes its reset value and a pending
command is discarded. What stands outside the block goes on: its parameters, the draws already
made, the agents' later moves and what the host has read. -/
def resetBlock (s : State) : State :=
  { State.resetWith s.params with
    draws := s.draws
    schedule := s.schedule
    observed := s.observed }

end Sys2Proof.Machine
end

