-- ==== Sys2Proof/Machine/Canvas.lean ====
section
/-! DEFINITION. The canvas compositor commands (spec/41_canvas_compositor.md rules R130 to R152). Each checks
in the order its rule lists, and the first check that fails decides (R216). -/

namespace Sys2Proof.Machine

/-- ALLOC (R131, R132): dimensions that do not fit are refused; the same dimensions keep the buffer;
other dimensions give a brand-new buffer, every pixel `Undef`. -/
def execAlloc (w h : Dim) (s : State) : Host.Outcome State Fault Refusal :=
  .next <|
    if w.toNat * h.toNat ≤ s.params.fbMaxPixels then
      if w = s.canvasW ∧ h = s.canvasH then
        finish .ok s
      else
        finish .ok { s with canvasW := w, canvasH := h, fb := [] }
    else
      raise .baddim s

/-- FILL (R133). -/
def execFill (rgb : Rgb) (s : State) : Host.Outcome State Fault Refusal :=
  .next (finish .ok { s with fb := Memory.filled s.pixelCount rgb })

/-- The cells PAINT writes, in canonical form: its pixel writes at their linear addresses (R61). -/
def paintCells (bank : Bank) (col row : Dim) (sx sy : Scale) (s : State) : Memory :=
  (tileWrites s.tile (s.pal.get bank.toFin) col row sx sy).map fun p =>
    (linearAddr s.canvasW p.x p.y, p.rgb)

/-- The canvas after the tile is painted (R134, R135). -/
def paintTile (bank : Bank) (col row : Dim) (sx sy : Scale) (s : State) : State :=
  { s with fb := Memory.overlay (paintCells bank col row sx sy s) s.fb }

/-- PAINT (R134): BADARG, NOTILE and OOB in that order (R136), else the tile is painted. -/
def execPaint (bank : Bank) (col row : Dim) (sx sy : Scale) (s : State) :
    Host.Outcome State Fault Refusal :=
  .next <|
    if sx = 0 ∨ sy = 0 then raise .badarg s
    else if s.tileValid = false then raise .notile s
    else if rectInside col row sx sy s.canvasW s.canvasH then
      finish .ok (paintTile bank col row sx sy s)
    else raise .oob s

/-- REPLACE (R140): one atomic read-modify-write of the whole canvas (R66). -/
def execReplace (old new : Rgb) (s : State) : Host.Outcome State Fault Refusal :=
  .next (finish .ok { s with fb := Memory.replace old new s.fb })

/-- MATERIALIZE (R148): the DPI values are latched and no pixel is touched. -/
def execMaterialize (dpiX dpiY : Dim) (s : State) : Host.Outcome State Fault Refusal :=
  .next (finish .ok { s with dpiX := dpiX, dpiY := dpiY })

/-- `RESULT <- zext_32(p)` of a read pixel (R151): an `Undef` pixel draws a fresh value (R34, R152). -/
def latchPixel (p : Pixel) (s : State) : State :=
  match p with
  | .defined c => { s with result := c.setWidth 32 }
  | .undef => { s with result := (Config.draw s.draws).setWidth 32, draws := s.draws + 1 }

/-- RDPIX (R151). -/
def execRdpix (x y : Dim) (s : State) : Host.Outcome State Fault Refusal :=
  .next <|
    if s.hasPixel x.toNat y.toNat then
      finish .ok (latchPixel (fbRead s x.toNat y.toNat) s)
    else
      raise .oob s

end Sys2Proof.Machine
end

