-- ==== Sys2Proof/Machine/PaletteControl.lean ====
section
/-! DEFINITION. The palette and control commands (spec/42_palette_and_control.md rules R170 to R178), and what
the sequencer does with a word that is no command (spec/30_encoding.md rule R87). -/

namespace Sys2Proof.Machine

/-- NOP (R170). -/
def execNop (s : State) : Host.Outcome State Fault Refusal := .next (finish .ok s)

/-- SETPAL (R172). -/
def execSetpal (bank : Bank) (idx : Shade) (rgb : Rgb) (s : State) :
    Host.Outcome State Fault Refusal :=
  .next (finish .ok { s with pal := setPalEntry s.pal bank idx rgb })

/-- RDPAL (R174). -/
def execRdpal (bank : Bank) (idx : Shade) (s : State) : Host.Outcome State Fault Refusal :=
  .next (finish .ok { s with result := (palEntry s.pal bank idx).setWidth 32 })

/-- CLRERR (R176): `ERRSTAT <- ERRSTAT & ~mask`. -/
def execClrerr (mask : BitVec 6) (s : State) : Host.Outcome State Fault Refusal :=
  .next (finish .ok { s with errstat := s.errstat &&& ~~~mask })

/-- A word that matches no row (R87, R214): `ERRSTAT.ILLEGAL <- 1; finish(7)`. -/
def execIllegal (s : State) : Host.Outcome State Fault Refusal := .next (raise .illegal s)

end Sys2Proof.Machine
end

