-- ==== Sys2Proof/Machine/TileDecoder.lean ====
section
/-! DEFINITION. The tile unpacker commands (spec/40_tile_decoder.md rules R100 to R111). -/

namespace Sys2Proof.Machine

/-- The record assembler is emptied: `REC_LEN <- 0; REC_NONHEX <- 0` (R100, R103). -/
def emptyAssembler (s : State) : State := { s with recLen := 0, recNonhex := false }

/-- A kept character enters the record (R101): it is stored below position 32, it counts, and a
character that is no hex digit is remembered. -/
def pushKept (ch : CodeUnit) (s : State) : State :=
  { s with
    recNib := storeNibble s.recNib s.recLen (hexval ch)
    recNonhex := s.recNonhex || !isHex ch
    recLen := satSucc s.recLen }

/-- REC_BEGIN (R100). -/
def execRecBegin (s : State) : Host.Outcome State Fault Refusal :=
  .next (finish .ok (emptyAssembler s))

/-- REC_CHAR (R101): a space or carriage return is dropped, every other character is kept. -/
def execRecChar (ch : CodeUnit) (s : State) : Host.Outcome State Fault Refusal :=
  .next (finish .ok (if isStrip ch then s else pushKept ch s))

/-- The code REC_END ends with: the length test first, then the digit test (R103, R104). -/
def recordCode (s : State) : ResultCode :=
  if s.recLen ≠ 32 then .recBadlen else if s.recNonhex then .recNonhex else .ok

/-- REC_END (R103): only a valid record writes `TILE`, and the assembler is emptied in every case. -/
def execRecEnd (s : State) : Host.Outcome State Fault Refusal :=
  match recordCode s with
  | .ok =>
    .next (finish .ok (emptyAssembler { s with tile := unpackTile s.recNib, tileValid := true }))
  | code => .next (finish code (emptyAssembler { s with tileValid := false }))

/-- RDSHADE (R110). -/
def execRdshade (idx : BitVec 6) (s : State) : Host.Outcome State Fault Refusal :=
  .next <|
    if s.tileValid then
      finish .ok { s with result := (s.tile.get idx.toFin).setWidth 32 }
    else
      raise .notile s

end Sys2Proof.Machine
end

