-- ==== Sys2Proof/Machine/Dispatch.lean ====
section
/-! DEFINITION. The rule of each command (spec/30_encoding.md rules R85 and R90): one arm per constructor. -/

namespace Sys2Proof.Machine

def exec (i : Instr) (s : State) : Host.Outcome State Fault Refusal :=
  match i with
  | .nop => Sys2Proof.Machine.execNop s
  | .recBegin => Sys2Proof.Machine.execRecBegin s
  | .recChar ch => Sys2Proof.Machine.execRecChar ch s
  | .recEnd => Sys2Proof.Machine.execRecEnd s
  | .rdshade idx => Sys2Proof.Machine.execRdshade idx s
  | .alloc w h => Sys2Proof.Machine.execAlloc w h s
  | .fill rgb => Sys2Proof.Machine.execFill rgb s
  | .paint bank col row sx sy => Sys2Proof.Machine.execPaint bank col row sx sy s
  | .replace old new => Sys2Proof.Machine.execReplace old new s
  | .materialize dpiX dpiY => Sys2Proof.Machine.execMaterialize dpiX dpiY s
  | .rdpix x y => Sys2Proof.Machine.execRdpix x y s
  | .setpal bank idx rgb => Sys2Proof.Machine.execSetpal bank idx rgb s
  | .rdpal bank idx => Sys2Proof.Machine.execRdpal bank idx s
  | .clrerr mask => Sys2Proof.Machine.execClrerr mask s

end Sys2Proof.Machine
end

