-- ==== Sys2Proof/Machine/Sequencer.lean ====
section
/-! DEFINITION. The moves of the two agents and of the platform (spec/00_scope.md rule R10, spec/10_state.md
rules R40 and R41, spec/60_exceptions.md rule R217, spec/70_reset_and_hazards.md rule R240). -/

namespace Sys2Proof.Machine

/-- What the sequencer executes for a word (R90): the decoded command's rule, or rule R87 for a word
that is no command. -/
def executeWord (w : CmdWord) (s : State) : Host.Outcome State Fault Refusal :=
  match decode w with
  | .ok i => exec i s
  | .error _ => execIllegal s

/-- The end of a sequencer step: `CMDREG <- none` (R41). -/
def clearCommand (o : Host.Outcome State Fault Refusal) : Host.Outcome State Fault Refusal :=
  match o with
  | .next t => .next { t with cmdReg := none }
  | .fault r => .fault r
  | .refused r => .refused r

/-- The sequencer step (R41): with a command pending, its execution and the emptying of `CMDREG` as
one update; with none pending, no step. -/
def sequencerStep (s : State) : Option (Host.Outcome State Fault Refusal) :=
  match s.cmdReg with
  | none => none
  | some w => some (clearCommand (executeWord w s))

/-- The sequencer's turn: its step if it has one; an idle block keeps all its state (R229). -/
def sequencerTurn (s : State) : Host.Outcome State Fault Refusal :=
  match sequencerStep s with
  | some o => o
  | none => .next s

/-- One agent's move (R217). -/
def move (e : Event) (s : State) : Host.Outcome State Fault Refusal :=
  match e with
  | .issue w => .next (issue w s)
  | .readReg n => readReg n s
  | .sequencer => sequencerTurn s
  | .reset => .next (resetBlock s)

/-- One atomic event (R217): the next scheduled move; when the schedule is used up only the
sequencer moves, so a pending command is always executed in the end (R41, R252). -/
def machineStep (s : State) : Host.Outcome State Fault Refusal :=
  match s.schedule with
  | [] => sequencerTurn s
  | e :: rest => move e { s with schedule := rest }

/-- `s` with the word pending, so that the very next `machineStep` executes it: the word is placed as
an accepted `issue` leaves it, and if other moves are scheduled the sequencer's turn is put first. -/
def placeCommand (w : CmdWord) (s : State) : State :=
  { s with
    cmdReg := some w
    schedule := match s.schedule with
      | [] => []
      | e :: rest => .sequencer :: e :: rest }

end Sys2Proof.Machine
end

