-- ==== Sys2Proof/Machine/Step.lean ====
section
/-! DEFINITION. One step of the model, and how the host places a word for it (spec/10_state.md rules R40 and
R41). The block has no program counter and fetches nothing (R21): the next command is the word in
`CMDREG`. -/

namespace Sys2Proof.Machine

/-- One step: one atomic event (R217). -/
def step (s : State) : Host.Outcome State Fault Refusal := machineStep s

/-- `s` with a word of `nbits` bits pending in `CMDREG`, the bits above `nbits` zero. -/
def State.withFetchWord (s : State) (nbits w : Nat) : State :=
  placeCommand (BitVec.ofNat 64 (w % 2 ^ nbits)) s

end Sys2Proof.Machine
end

