-- ==== Sys2Proof/Machine/Assembler.lean ====
section
/-! DEFINITION. The assembler syntax of spec/30_encoding.md rule R91 and the pseudo-commands of rule R92. -/

namespace Sys2Proof.Machine

/-- The command an assembler command writes (R84, R91): none unless it is well formed. DESIGN CHOICE:
a number that does not fit its field is refused and never cut off (notes/assumptions/13.md). -/
def assembleCommand (c : AsmCommand) : Option Instr :=
  if c.wellFormed then
    match c.mnemonic, c.operands with
    | .nop, [] => some .nop
    | .recBegin, [] => some .recBegin
    | .recChar, [ch] => some (.recChar (BitVec.ofNat 8 ch))
    | .recEnd, [] => some .recEnd
    | .rdshade, [idx] => some (.rdshade (BitVec.ofNat 6 idx))
    | .alloc, [w, h] => some (.alloc (BitVec.ofNat 16 w) (BitVec.ofNat 16 h))
    | .fill, [rgb] => some (.fill (BitVec.ofNat 24 rgb))
    | .paint, [bank, col, row, sx, sy] =>
      some (.paint (BitVec.ofNat 1 bank) (BitVec.ofNat 16 col) (BitVec.ofNat 16 row)
        (BitVec.ofNat 8 sx) (BitVec.ofNat 8 sy))
    | .replace, [old, new] => some (.replace (BitVec.ofNat 24 old) (BitVec.ofNat 24 new))
    | .materialize, [dpiX, dpiY] =>
      some (.materialize (BitVec.ofNat 16 dpiX) (BitVec.ofNat 16 dpiY))
    | .rdpix, [x, y] => some (.rdpix (BitVec.ofNat 16 x) (BitVec.ofNat 16 y))
    | .setpal, [bank, idx, rgb] =>
      some (.setpal (BitVec.ofNat 1 bank) (BitVec.ofNat 2 idx) (BitVec.ofNat 24 rgb))
    | .rdpal, [bank, idx] => some (.rdpal (BitVec.ofNat 1 bank) (BitVec.ofNat 2 idx))
    | .clrerr, [mask] => some (.clrerr (BitVec.ofNat 6 mask))
    | _, _ => none
  else
    none

/-! ### Text (R91) -/

/-- The mnemonics as rule R91 writes them. -/
def mnemonicNames : List (List Char × Mnemonic) :=
  [ ("NOP".toList, .nop), ("REC_BEGIN".toList, .recBegin), ("REC_CHAR".toList, .recChar),
    ("REC_END".toList, .recEnd), ("RDSHADE".toList, .rdshade), ("ALLOC".toList, .alloc),
    ("FILL".toList, .fill), ("PAINT".toList, .paint), ("REPLACE".toList, .replace),
    ("MATERIALIZE".toList, .materialize), ("RDPIX".toList, .rdpix), ("SETPAL".toList, .setpal),
    ("RDPAL".toList, .rdpal), ("CLRERR".toList, .clrerr) ]

/-- The mnemonic a word names. -/
def mnemonicOf (w : List Char) : Option Mnemonic :=
  (mnemonicNames.find? (fun p => p.1 == w)).map Prod.snd

/-- What a line is made of: words (a mnemonic or a number), quoted characters and commas. -/
inductive AsmToken where
  | word (w : List Char)
  | quoted (c : Char)
  | comma
  deriving DecidableEq, Repr

/-- The characters of mnemonics and numbers. -/
def isWordChar (c : Char) : Bool := c.isAlphanum || c == '_'

/-- The word read so far (kept newest character first) becomes a token. -/
def endWord (acc : List Char) (rest : List AsmToken) : List AsmToken :=
  if acc.isEmpty then rest else .word acc.reverse :: rest

/-- The tokens of a line. A quoted character is one token, so a quoted `;` starts no comment; any
other `;` ends the line (R91, notes/assumptions/8.md). -/
def lexLine : List Char → List Char → Option (List AsmToken)
  | [], acc => some (endWord acc [])
  | '\'' :: c :: '\'' :: rest, acc => (lexLine rest []).map fun ts => endWord acc (.quoted c :: ts)
  | c :: rest, acc =>
    if c == ';' then some (endWord acc [])
    else if c == ',' then (lexLine rest []).map fun ts => endWord acc (.comma :: ts)
    else if c == ' ' || c == '\t' || c == '\r' then (lexLine rest []).map (endWord acc)
    else if isWordChar c then lexLine rest (c :: acc)
    else none

/-- The value of a digit in a base up to 16. -/
def digitValue (base : Nat) (c : Char) : Option Nat :=
  let n := c.toNat
  let v :=
    if 0x30 ≤ n ∧ n ≤ 0x39 then some (n - 0x30)
    else if 0x41 ≤ n ∧ n ≤ 0x46 then some (n - 0x41 + 10)
    else if 0x61 ≤ n ∧ n ≤ 0x66 then some (n - 0x61 + 10)
    else none
  v.filter (fun d => decide (d < base))

/-- The number a non-empty list of digits writes. -/
def digitsValue (base : Nat) (ds : List Char) : Option Nat :=
  if ds.isEmpty then none
  else ds.foldl (fun acc c => acc.bind fun n => (digitValue base c).map fun d => n * base + d) (some 0)

/-- A number is decimal or `0x` hexadecimal (R91). DESIGN CHOICE: a colour operand is read as any such
number below 2^24, decimal or with fewer than six digits too; rule R91 gives the form `0xRRGGBB` and
does not say whether others are colours (notes/assumptions/14.md). -/
def numberValue : List Char → Option Nat
  | '0' :: 'x' :: ds => digitsValue 16 ds
  | ds => digitsValue 10 ds

/-- One operand: a number, or the code unit of a quoted character (R91). DESIGN CHOICE: a quoted
character is taken in every operand position, and any character whose number fits the field (with
REC_CHAR, up to U+00FF); rule R91 shows ASCII characters with REC_CHAR only and does not say whether
other operands or characters may be quoted (notes/assumptions/14.md). -/
def operandValue : AsmToken → Option Nat
  | .word w => numberValue w
  | .quoted c => some c.toNat
  | .comma => none

/-- Operands separated by commas (R91). -/
def parseOperands : List AsmToken → Option (List Nat)
  | [] => some []
  | [t] => (operandValue t).map fun v => [v]
  | t :: .comma :: u :: rest => (operandValue t).bind fun v =>
      (parseOperands (u :: rest)).map fun vs => v :: vs
  | _ => none

/-- What a line of assembler text is. -/
inductive AsmLine where
  /-- Empty, or a comment only. -/
  | blank
  /-- A command. -/
  | command (i : Instr)
  /-- Not of rule R91's form. -/
  | malformed
  deriving DecidableEq, Repr

/-- Read one line of assembler text (R91). -/
def parseLine (line : List Char) : AsmLine :=
  match lexLine line [] with
  | none => .malformed
  | some [] => .blank
  | some (.word w :: ts) =>
    match mnemonicOf w, parseOperands ts with
    | some m, some vs =>
      match assembleCommand ⟨m, vs⟩ with
      | some i => .command i
      | none => .malformed
    | _, _ => .malformed
  | some _ => .malformed

/-! ### Pseudo-commands (R92) -/

/-- `RECORD "s"`: the record's characters verbatim between REC_BEGIN and REC_END. -/
def recordCommands (s : List CodeUnit) : List Instr :=
  .recBegin :: (s.map Instr.recChar ++ [.recEnd])

/-- The four shade indices in order. -/
def shadeIndices : List Shade := [0, 1, 2, 3]

/-- `PALSWAP a, b` for two palettes the host knows: REPLACE `A[i], B[i]` for `i` = 0, 1, 2, 3. -/
def palswapCommands (A B : Palette) : List Instr :=
  shadeIndices.map fun i => .replace (paletteEntry A i) (paletteEntry B i)

/-- `CLEARERR`. -/
def clearErrCommands : List Instr := [.clrerr 0x3F]

end Sys2Proof.Machine
end

