-- ==== Sys2Proof/Machine/Pipeline.lean ====
section
/-! DEFINITION. The reference host procedure of spec/43_host_pipeline.md (rules R190 to R206): the host agent's
program, which drives the block by `issue` and `readReg` alone. The block's rules do not depend on
it (R190). -/

namespace Sys2Proof.Machine

/-! ### Driving the block (R190) -/

/-- Wait until `BUSY = 0`: one sequencer step empties `CMDREG` (R41, R70), and an idle block stays
as it is. -/
def settle (s : State) : State :=
  match sequencerTurn s with
  | .next t => t
  | .fault _ => s
  | .refused _ => s

/-- `LAST_CODE` as the host reads it, `STATUS[7:4]` (R42). -/
def readLastCode (s : State) : BitVec 4 := (statusReg s).extractLsb' 4 4

/-- `exec(w)` of rule R190 without its answer: issue the word and wait until `BUSY = 0`. -/
def hostExec (i : Instr) (s : State) : State := settle (issue (encode i) s)

/-- Commands one after another, waiting after each (R92, R245). -/
def hostExecAll (is : List Instr) (s : State) : State := is.foldl (fun s i => hostExec i s) s

/-- `RECORD "s"` and the code its REC_END ended with (R92, R194). -/
def hostRecord (r : List CodeUnit) (s : State) : BitVec 4 × State :=
  let t := hostExecAll (recordCommands r) s
  (readLastCode t, t)

/-! ### Lines (R191 to R193) -/

/-- Split on line feeds; the line feeds belong to no line (R191). -/
def splitLines : List CodeUnit → List (List CodeUnit)
  | [] => [[]]
  | ch :: rest =>
    if ch = 0x0A then [] :: splitLines rest
    else
      match splitLines rest with
      | [] => [[ch]]
      | l :: ls => (ch :: l) :: ls

/-- Empty, or only spaces and carriage returns (R193). -/
def isBlankLine (l : List CodeUnit) : Bool := l.all isStrip

/-- Starts with `!`, `#`, `{` or `//`, with no trimming (R192). -/
def isCommentLine : List CodeUnit → Bool
  | [] => false
  | [a] => a == 0x21 || a == 0x23 || a == 0x7B
  | a :: b :: _ => a == 0x21 || a == 0x23 || a == 0x7B || (a == 0x2F && b == 0x2F)

/-- A candidate record: neither blank nor a comment (R192). -/
def isCandidate (l : List CodeUnit) : Bool := !isBlankLine l && !isCommentLine l

/-- The candidate records of a blob, in order (R191, R192). -/
def candidates (blob : List CodeUnit) : List (List CodeUnit) := (splitLines blob).filter isCandidate

/-! ### Layout (R195, R196) -/

/-- `S = TARGET_WIDTH div (8 × TILES_PER_ROW)` (R195). -/
def hostScale (p : HostParams) : Nat := p.targetWidth / (8 * p.tilesPerRow)

/-- The parameter choices inside the specification (R195): an exact division, `S` in 1..255. -/
def hostParamsValid (p : HostParams) : Bool :=
  decide (p.targetWidth % (8 * p.tilesPerRow) = 0) && decide (0 < hostScale p) &&
    decide (hostScale p ≤ 255)

/-- `rows = N div TILES_PER_ROW` (R196). -/
def hostRows (p : HostParams) (n : Nat) : Nat := n / p.tilesPerRow

/-- `W = TILES_PER_ROW × 8 × S` (R196). -/
def hostWidth (p : HostParams) : Nat := p.tilesPerRow * 8 * hostScale p

/-- `H = rows × 8 × S` (R196). -/
def hostHeight (p : HostParams) (n : Nat) : Nat := hostRows p n * 8 * hostScale p

/-! ### A capture (R194 to R199) -/

/-- What the host knows and chooses: its parameters, the palette bank values (from RDPAL or from
what it loaded, R197) and the palette choice `sel`. -/
structure HostConfig where
  params   : HostParams
  palettes : Vector Palette 2
  sel      : Bank
  deriving DecidableEq, Repr

/-- Why the host stops. -/
inductive HostStop where
  /-- A parameter choice outside the specification: the host does not run (R195). DESIGN CHOICE: no
  procedure of the host then issues anything (notes/assumptions/16.md). -/
  | parametersOutsideSpec
  /-- A canvas dimension that ALLOC's 16-bit fields cannot hold (notes/assumptions/7.md). -/
  | canvasNotEncodable
  /-- ALLOC ended with BADDIM (R196). -/
  | badDim
  /-- The palettes do not satisfy the condition SWAP that a palette toggle needs (R248). DESIGN CHOICE:
  the toggle is not begun and the host stops (notes/assumptions/17.md). -/
  | swapConditionFails
  deriving DecidableEq, Repr

/-- The image the host hands the display collaborator (R199): the tuple of rule R149, the pixels as
RDPIX delivered them, row by row from the top (R32). -/
structure HostImage where
  width  : Dim
  height : Dim
  dpiX   : Dim
  dpiY   : Dim
  pixels : List HostWord
  deriving DecidableEq, Repr

/-- How a render ends, with the block's state. -/
inductive RenderOutcome where
  | published (image : HostImage) (s : State)
  | stopped (why : HostStop) (s : State)
  deriving DecidableEq, Repr

/-- The counting pass (R194): every candidate is recorded, and the valid ones are counted. -/
def countingPass : List (List CodeUnit) → State → Nat × State
  | [], s => (0, s)
  | r :: rs, s =>
    let (code, t) := hostRecord r s
    let (n, u) := countingPass rs t
    (if code = 0 then n + 1 else n, u)

/-- PAINT of the valid tile number `t` (R198): column `t mod TILES_PER_ROW`, row
`t div TILES_PER_ROW`, scale `S` on both axes. -/
def tilePaint (c : HostConfig) (t : Nat) : Instr :=
  .paint c.sel (BitVec.ofNat 16 (t % c.params.tilesPerRow))
    (BitVec.ofNat 16 (t / c.params.tilesPerRow))
    (BitVec.ofNat 8 (hostScale c.params)) (BitVec.ofNat 8 (hostScale c.params))

/-- The painting pass (R198) from valid-tile counter `t`, with `limit = rows × TILES_PER_ROW`. -/
def paintingPass (c : HostConfig) (limit : Nat) : Nat → List (List CodeUnit) → State → State
  | _, [], s => s
  | t, r :: rs, s =>
    let (code, u) := hostRecord r s
    if code ≠ 0 then paintingPass c limit t rs u
    else
      let v := if t < limit then hostExec (tilePaint c t) u else u
      paintingPass c limit (t + 1) rs v

/-- The background fill (R197). -/
def backgroundFill (c : HostConfig) : Instr :=
  .fill (palEntry c.palettes c.sel c.params.fillShade)

/-! ### Read-out (R199) -/

/-- Read pixel `(x, y)`: RDPIX, then `RESULT` (R151, R199). -/
def hostReadPixel (x y : Nat) (s : State) : HostWord × State :=
  let t := hostExec (.rdpix (BitVec.ofNat 16 x) (BitVec.ofNat 16 y)) s
  (t.result, t)

/-- Read pixels one after another. -/
def hostReadPixels : List (Nat × Nat) → State → List HostWord × State
  | [], s => ([], s)
  | p :: ps, s =>
    let (v, t) := hostReadPixel p.1 p.2 s
    let (vs, u) := hostReadPixels ps t
    (v :: vs, u)

/-- The pixels of a `w × h` image, row by row from the top, each row from the left (R32). DESIGN CHOICE:
rule R199 names no order of reading (notes/assumptions/12.md). -/
def pixelCoords (w h : Nat) : List (Nat × Nat) :=
  (List.range h).flatMap fun y => (List.range w).map fun x => (x, y)

/-- The whole image read out with RDPIX (R199), its size and DPI values as the host reads them in
registers 3 to 6 (R44). -/
def readOut (s : State) : HostImage × State :=
  let (pixels, t) := hostReadPixels (pixelCoords s.canvasW.toNat s.canvasH.toNat) s
  ({ width := s.canvasW, height := s.canvasH, dpiX := s.dpiX, dpiY := s.dpiY, pixels := pixels }, t)

/-- Publishing (R199): MATERIALIZE with the host's DPI values, then the read-out, which is complete
before the host issues anything else (R201, R247). -/
def publish (c : HostConfig) (s : State) : RenderOutcome :=
  let (image, t) := readOut (hostExec (.materialize c.params.dpiX c.params.dpiY) s)
  .published image t

/-! ### Whole captures -/

/-- From the counted records on: ALLOC, FILL, the painting pass over `rs`, publishing (R196 to
R199). -/
def renderCanvas (c : HostConfig) (n : Nat) (rs : List (List CodeUnit)) (s : State) : RenderOutcome :=
  if hostWidth c.params < 2 ^ 16 ∧ hostHeight c.params n < 2 ^ 16 then
    let t := hostExec
      (.alloc (BitVec.ofNat 16 (hostWidth c.params)) (BitVec.ofNat 16 (hostHeight c.params n))) s
    if readLastCode t = ResultCode.baddim.bits then .stopped .badDim t
    else
      let u := hostExec (backgroundFill c) t
      publish c (paintingPass c (hostRows c.params n * c.params.tilesPerRow) 0 rs u)
  else
    .stopped .canvasNotEncodable s

/-- The Capture-to-Canvas Pipeline (R191 to R199) on one capture event. -/
def capture (c : HostConfig) (blob : List CodeUnit) (s : State) : RenderOutcome :=
  if hostParamsValid c.params then
    let rs := candidates blob
    let (n, t) := countingPass rs s
    renderCanvas c n rs t
  else
    .stopped .parametersOutsideSpec s

/-- The valid records among the candidates, in order, each decoded once (R202). DESIGN CHOICE: of what
rule R202 lets the host keep, the record strings are kept, as they were delivered and not the tiles'
16 bytes (notes/assumptions/15.md). -/
def keepingPass : List (List CodeUnit) → State → List (List CodeUnit) × State
  | [], s => ([], s)
  | r :: rs, s =>
    let (code, t) := hostRecord r s
    let (kept, u) := keepingPass rs t
    (if code = 0 then r :: kept else kept, u)

/-- The single-pass host of rule R202: the valid records are kept and only they are sent again. -/
def captureSinglePass (c : HostConfig) (blob : List CodeUnit) (s : State) : RenderOutcome :=
  if hostParamsValid c.params then
    let (kept, t) := keepingPass (candidates blob) s
    renderCanvas c kept.length kept t
  else
    .stopped .parametersOutsideSpec s

/-! ### Palette toggle and sessions (R200, R201, R206, R243) -/

/-- The palette the host shows. -/
def HostConfig.shown (c : HostConfig) : Palette := c.palettes.get c.sel.toFin

/-- The configuration after a toggle: `sel <- 1 − sel` (R200). -/
def HostConfig.toggled (c : HostConfig) : HostConfig := { c with sel := ~~~c.sel }

/-- The host's check of its palettes before a toggle (R248): SWAP from the shown palette to the other
one and, when it toggles back later, the other way too. -/
def swapCheck (c : HostConfig) (back : Bool) : Bool :=
  decide (swapOk c.shown c.toggled.shown) && (!back || decide (swapOk c.toggled.shown c.shown))

/-- How a palette toggle ends: the host's configuration with its new palette choice, and the block's
state. -/
inductive ToggleOutcome where
  | toggled (config : HostConfig) (s : State)
  | stopped (why : HostStop) (s : State)
  deriving DecidableEq, Repr

/-- The palette toggle (R200): the check of rule R248, then PALSWAP from the shown palette to the other
one, its four REPLACEs in index order with nothing between them, and `sel` moves. `back` says whether
the host toggles back later. DESIGN CHOICE: when the check fails nothing is issued and the host stops
(notes/assumptions/17.md). -/
def paletteToggle (c : HostConfig) (back : Bool) (s : State) : ToggleOutcome :=
  if hostParamsValid c.params then
    if swapCheck c back then
      .toggled c.toggled (hostExecAll (palswapCommands c.shown c.toggled.shown) s)
    else
      .stopped .swapConditionFails s
  else
    .stopped .parametersOutsideSpec s

/-- The eight SETPALs that load known palette values after reset, one per entry (R242, R243
step 1). -/
def loadPaletteCommands (pal : Vector Palette 2) : List Instr :=
  [(0 : Bank), 1].flatMap fun b => shadeIndices.map fun i => .setpal b i (palEntry pal b i)

/-- From reset: the palettes are loaded, then the capture allocates, fills, paints and publishes
(R243). DESIGN CHOICE: parameters outside the specification stop the host before it loads the
palettes (R195, notes/assumptions/16.md). -/
def bootAndCapture (c : HostConfig) (blob : List CodeUnit) (s : State) : RenderOutcome :=
  if hostParamsValid c.params then
    capture c blob (hostExecAll (loadPaletteCommands c.palettes) s)
  else
    .stopped .parametersOutsideSpec s

/-- What the host's collaborators deliver (R191, R200, R206). -/
inductive HostJob where
  /-- A capture event with its blob. -/
  | captureEvent (blob : List CodeUnit)
  /-- The user toggles the palette. -/
  | toggle
  /-- The input collaborator disconnects: no further capture event follows (R206). -/
  | disconnect
  deriving DecidableEq, Repr

/-- Whether the user toggles again before the input collaborator disconnects. -/
def togglesBack : List HostJob → Bool
  | [] => false
  | .captureEvent _ :: jobs => togglesBack jobs
  | .toggle :: _ => true
  | .disconnect :: _ => false

/-- Where a session ends: the host's configuration (its palette choice may have moved), the images
delivered, the oldest first, why the host stopped before its jobs were done, if it did, and the
block's state. -/
structure HostSession where
  config  : HostConfig
  images  : List HostImage
  stopped : Option HostStop
  state   : State
  deriving DecidableEq, Repr

/-- The host takes its jobs one at a time, each to completion, a capture's read-out included (R201).
A stop or a disconnect ends its use of the block; neither resets the block (R196, R206). Every job
checks the host's parameters before it issues anything (R195). -/
def hostSession (c : HostConfig) : List HostJob → State → HostSession
  | [], s => { config := c, images := [], stopped := none, state := s }
  | .captureEvent blob :: jobs, s =>
    match capture c blob s with
    | .published image t =>
      let rest := hostSession c jobs t
      { rest with images := image :: rest.images }
    | .stopped why t => { config := c, images := [], stopped := some why, state := t }
  | .toggle :: jobs, s =>
    match paletteToggle c (togglesBack jobs) s with
    | .toggled c' t => hostSession c' jobs t
    | .stopped why t => { config := c, images := [], stopped := some why, state := t }
  | .disconnect :: _, s => { config := c, images := [], stopped := none, state := s }

end Sys2Proof.Machine
end

