-- ==== Sys2Proof/Safety.lean ====
section
/-! DEFINITION. The terms in which claims are made: the block's invariant, runs that do not err, the host's
duty to wait, canvases painted from one palette, the declared image, and the source's decoder as rule
R111 reads it. -/

namespace Sys2Proof.Safety

open Sys2Proof.Machine

/-- What holds at reset and after every event. -/
structure Inv (s : State) : Prop where
  /-- The framebuffer store is in canonical form (R61). -/
  canonical  : Memory.wf s.fb = true
  /-- Only existing pixels are stored (R33). -/
  inCanvas   : ∀ p ∈ s.fb, p.1 < s.pixelCount
  /-- `CANVAS_W × CANVAS_H ≤ FB_MAX_PIXELS` (R30). -/
  capacity   : s.pixelCount ≤ s.params.fbMaxPixels
  /-- Codes 8 to 15 are never produced (R211). -/
  codeRange  : s.lastCode.toNat ≤ 7
  /-- `RESULT[31:24]` is 0: every read command widens at most 24 bits (R110, R152, R174). -/
  resultTop  : s.result.toNat < 2 ^ 24
  /-- `REC_NONHEX` is set by a kept character only, which counts (R24, R25). -/
  nonhexKept : s.recNonhex = true → s.recLen ≠ 0
  /-- While `LAST_CODE` is the code of a programming error its sticky bit is set (R211, R213). -/
  sticky     : ∀ e : ErrorKind, s.lastCode = e.code.bits → s.errstat &&& e.stickyBit = e.stickyBit

/-- `k` steps, stopping at the first that has no next state. -/
def run : Nat → State → Host.Outcome State Fault Refusal
  | 0, s => .next s
  | k + 1, s =>
    match step s with
    | .next t => run k t
    | .fault r => .fault r
    | .refused r => .refused r

/-- A run that has not erred: no sticky bit is set (R230). -/
def noError (s : State) : Prop := s.errstat = 0

/-- Whether the host issues only when it knows that `BUSY = 0` (R245), for a schedule that begins
with the given `BUSY`. -/
def waitsForIdle : Bool → List Event → Bool
  | _, [] => true
  | busy, .issue _ :: es => !busy && waitsForIdle true es
  | busy, .readReg _ :: es => waitsForIdle busy es
  | _, .sequencer :: es => waitsForIdle false es
  | _, .reset :: es => waitsForIdle false es

/-- Every pixel of the canvas is `Defined` with a colour of the palette: the premise of R143. -/
def paintedFrom (A : Palette) (s : State) : Prop :=
  ∀ x y : Nat, s.hasPixel x y = true → ∃ k : Shade, fbRead s x y = .defined (paletteEntry A k)

/-- The image MATERIALIZE declares (R149). -/
structure Snapshot where
  width  : Dim
  height : Dim
  pixels : List Pixel
  dpiX   : Dim
  dpiY   : Dim
  deriving DecidableEq, Repr

/-- The image the block holds now: the pixels row by row from the top (R149, R32). -/
def snapshot (s : State) : Snapshot :=
  { width := s.canvasW
    height := s.canvasH
    pixels := (List.range s.pixelCount).map (memRead s)
    dpiX := s.dpiX
    dpiY := s.dpiY }

/-- One REPLACE as a function of a colour (R142). -/
def replaceColour (old new v : Rgb) : Rgb := if v = old then new else v

/-! ### The source's decoder (R111) -/

/-- Byte `k` of 32 hex characters: its two digits, the first one high (R62). -/
def sourceByte (kept : List CodeUnit) (k : Nat) : Nat :=
  (hexval (kept.getD (2 * k) 0)).toNat * 16 + (hexval (kept.getD (2 * k + 1) 0)).toNat

/-- Step 2 and step 3 of the source's §4.1 for row `j`, column `i`. -/
def sourceShade (kept : List CodeUnit) (j i : Nat) : Nat :=
  let loBit := sourceByte kept (2 * j) / 2 ^ (7 - i) % 2
  let hiBit := sourceByte kept (2 * j + 1) / 2 ^ (7 - i) % 2
  hiBit * 2 + loBit

/-- `decode` as R111 reads it: strip, check the length, check the digits, parse and unpack. -/
def sourceDecode (r : List CodeUnit) : Option (Vector Shade 64) :=
  let kept := r.filter fun ch => !isStrip ch
  if kept.length ≠ 32 then none
  else if kept.all isHex then
    some (Vector.ofFn fun n : Fin 64 => BitVec.ofNat 2 (sourceShade kept (n.val / 8) (n.val % 8)))
  else none

end Sys2Proof.Safety
end

