-- ==== Sys2Proof/Certificates/Slice0/Obligations.lean ====
section
/-! DEFINITION. The statements for the provers. Each docstring names the rules of spec/ it formalises.

A result is written `exec i s = .next { s with … }`: it says that the command completes, what it
writes, and (every other field being `s`'s) its frame, the framebuffer among the fields. Where the
framebuffer is written, the new store is called `m` and pinned down at every existing pixel. -/

open Sys2Proof Sys2Proof.Machine Sys2Proof.Safety

/-! ### Encoding and decoding -/

/-- Decoding an encoded command gives it back, with every operand at every value (R83, R84, R89). -/
def Obligations.DecodeOfEncode : Prop :=
  ∀ i : Instr, decode (encode i) = .ok i

/-- A word that decodes is the word of the command it decodes to, so no bit of it is ignored (R88):
a set reserved bit is never read as a command. -/
def Obligations.EncodeOfDecode : Prop :=
  ∀ (w : CmdWord) (i : Instr), decode w = .ok i → encode i = w

/-- The decode function (R89): the row a word matches gives the command with the fields of the row's
format; a word no row matches is rejected; and at most one row matches any word. -/
def Obligations.DecodeFollowsOpcodeMap : Prop :=
  ∀ w : CmdWord,
    (∀ r ∈ opcodeTable, w &&& r.mask = r.matchBits → decode w = .ok (readFields r.mnemonic w)) ∧
    ((∀ r ∈ opcodeTable, w &&& r.mask ≠ r.matchBits) → ∃ e : Reject, decode w = .error e) ∧
    ∀ r ∈ opcodeTable, ∀ r' ∈ opcodeTable,
      w &&& r.mask = r.matchBits → w &&& r'.mask = r'.matchBits → r = r'

/-- A word with an assigned opcode and a 1 in a bit that its format reserves is rejected by that
name, and the sequencer executes it as rule R87 says (R86). -/
def Obligations.ReservedBitExecutesAsIllegal : Prop :=
  ∀ (s : State) (w : CmdWord) (r : OpcodeRow), r ∈ opcodeTable →
    opcodeOf w = opcodeOf r.matchBits → w &&& r.mask ≠ r.matchBits →
    s.schedule = [] → s.cmdReg = some w →
    decode w = .error (.reservedBits (opcodeOf w)) ∧
      step s = .next { s with errstat := s.errstat ||| 0b000001, lastCode := 7, cmdReg := none }

/-- A word that matches no row of R85, every word with an unassigned opcode among them, sets
`ERRSTAT.ILLEGAL`, ends with code 7 and changes nothing else (R87). -/
def Obligations.IllegalWordChangesNothingElse : Prop :=
  (∀ w : CmdWord, (0x05#8 ≤ opcodeOf w ∧ opcodeOf w ≤ 0x0F#8 ∨
      0x16#8 ≤ opcodeOf w ∧ opcodeOf w ≤ 0x1F#8 ∨
      0x22#8 ≤ opcodeOf w ∧ opcodeOf w ≤ 0x2F#8 ∨ 0x31#8 ≤ opcodeOf w) →
    ∀ r ∈ opcodeTable, w &&& r.mask ≠ r.matchBits) ∧
  ∀ (s : State) (w : CmdWord), (∀ r ∈ opcodeTable, w &&& r.mask ≠ r.matchBits) →
    s.schedule = [] → s.cmdReg = some w →
    step s = .next { s with errstat := s.errstat ||| 0b000001, lastCode := 7, cmdReg := none }

/-- The words written out in rule R91's table decode to the commands beside them. -/
def Obligations.SyntaxTableWordsDecode : Prop :=
  decode 0x0000000000000000 = .ok .nop ∧
  decode 0x0100000000000000 = .ok .recBegin ∧
  decode 0x0200000000000046 = .ok (.recChar 0x46) ∧
  decode 0x0300000000000000 = .ok .recEnd ∧
  decode 0x0400000000000009 = .ok (.rdshade 9) ∧
  decode 0x1000000001E00018 = .ok (.alloc 480 24) ∧
  decode 0x1100000000000000 = .ok (.fill 0x000000) ∧
  decode 0x1200000100000303 = .ok (.paint 0 1 0 3 3) ∧
  decode 0x1300FFFFFF9BBC0F = .ok (.replace 0xFFFFFF 0x9BBC0F) ∧
  decode 0x1400000000600060 = .ok (.materialize 96 96) ∧
  decode 0x1500000000080000 = .ok (.rdpix 8 0) ∧
  decode 0x2001000200306230 = .ok (.setpal 1 2 0x306230) ∧
  decode 0x2101000300000000 = .ok (.rdpal 1 3) ∧
  decode 0x300000000000003F = .ok (.clrerr 0x3F)

/-- The assembler gives every command back from its own text operands; an assembled command is the
one that was written, no operand cut off (R84, R91). That an operand which does not fit its field is
refused is the model's choice (notes/assumptions/13.md). -/
def Obligations.AssemblerKeepsOperands : Prop :=
  (∀ i : Instr, assembleCommand i.toAsm = some i) ∧
  (∀ (c : AsmCommand) (i : Instr), assembleCommand c = some i → i.toAsm = c) ∧
  ∀ c : AsmCommand, assembleCommand c = none ↔ c.wellFormed = false

/-! ### The step, the command port and the host registers -/

/-- The sequencer step executes the decoded command, or rule R87 for a word that is no command, as
one update that also empties `CMDREG` (R41, R90); when the step is scheduled the same happens on
the state without that scheduled move. -/
def Obligations.StepExecutesPendingCommand : Prop :=
  (∀ (s : State) (w : CmdWord) (i : Instr), s.cmdReg = some w → decode w = .ok i →
    ∃ t, exec i s = .next t ∧
      (s.schedule = [] → step s = .next { t with cmdReg := none }) ∧
      ∀ rest, step { s with schedule := .sequencer :: rest } =
        .next { t with cmdReg := none, schedule := rest }) ∧
  ∀ (s : State) (w : CmdWord) (r : Reject), s.cmdReg = some w → decode w = .error r →
    s.schedule = [] →
    step s = .next { s with errstat := s.errstat ||| 0b000001, lastCode := 7, cmdReg := none }

/-- With no command pending the sequencer has no step, and an idle block keeps all state (R41,
R229). That a `step` with nothing to do answers the same state is the model's convention
(notes/assumptions/5.md). -/
def Obligations.IdleBlockKeepsState : Prop :=
  ∀ s : State, s.cmdReg = none →
    sequencerStep s = none ∧ (s.schedule = [] → step s = .next s)

/-- Every command completes: whatever the word and the state, the sequencer's step answers a next
state with `CMDREG` empty and a result code of rule R211's table, 0 to 7. -/
def Obligations.EveryCommandCompletes : Prop :=
  ∀ (s : State) (w : CmdWord), s.cmdReg = some w → s.schedule = [] →
    ∃ t, step s = .next t ∧ t.cmdReg = none ∧ t.lastCode.toNat ≤ 7

/-- `issue(w)` takes the word when `CMDREG` is empty; otherwise it discards it and sets OVERRUN, and
nothing else changes, `LAST_CODE` included (R39). -/
def Obligations.IssueTakesOrOverruns : Prop :=
  ∀ (s : State) (w : CmdWord) (rest : List Event), s.schedule = .issue w :: rest →
    (s.cmdReg = none → step s = .next { s with schedule := rest, cmdReg := some w }) ∧
    ∀ v, s.cmdReg = some v →
      step s = .next { s with schedule := rest, errstat := s.errstat ||| 0b100000 }

/-- An `issue` while `BUSY = 1` sets OVERRUN and discards its word (R215): the pending command is
unaffected and still executes, `LAST_CODE` is not written, and the discarded word never executes:
the sequencer's turn after it is the pending command's own step with OVERRUN set. -/
def Obligations.OverrunLeavesPendingCommand : Prop :=
  ∀ (s : State) (w w' : CmdWord), s.cmdReg = some w → s.schedule = [.issue w', .sequencer] →
    step s = .next
      { s with schedule := [.sequencer], errstat := s.errstat ||| 0b100000 } ∧
    run 2 s = step { s with schedule := [], errstat := s.errstat ||| 0b100000 }

/-- A host that issues only when it knows `BUSY = 0` never sets OVERRUN (R245). -/
def Obligations.WaitingHostNeverOverruns : Prop :=
  ∀ (k : Nat) (s t : State), waitsForIdle s.busy s.schedule = true →
    run k s = .next t →
    t.errstat.getLsbD 5 = true → s.errstat.getLsbD 5 = true

/-- Commands execute one at a time in the order issued, each seeing every effect of those before it:
issue and turn for each of a list of commands is their effects one after another (R69). -/
def Obligations.CommandsRunInIssueOrder : Prop :=
  ∀ (is : List Instr) (s : State), s.cmdReg = none →
    ∃ t, run (2 * is.length)
        { s with schedule := is.flatMap fun i => [.issue (encode i), .sequencer] } = .next t ∧
      t = is.foldl (fun u i => match exec i u with
        | .next v => v
        | .fault _ => u
        | .refused _ => u) { s with schedule := [] }

/-- A pending command is executed in the end: if the scheduled moves are issues and reads of existing
registers only, they are all made, the command is still pending, and the next step executes it
(R41, R252). That the very next step does is the model's schedule (notes/assumptions/3.md); the rules
give weak fairness alone. -/
def Obligations.PendingCommandIsExecuted : Prop :=
  ∀ (s : State) (w : CmdWord), s.cmdReg = some w →
    (∀ e ∈ s.schedule, (∃ v, e = .issue v) ∨ ∃ n, n < 7 ∧ e = .readReg n) →
    ∃ u t, run s.schedule.length s = .next u ∧
      u.cmdReg = some w ∧ u.schedule = [] ∧ step u = .next t ∧ t.cmdReg = none

/-- `readReg` changes no state element of the block and may be made while `BUSY = 1`; the host
receives the register's value in the state before the pending command (R46). -/
def Obligations.ReadRegHasNoSideEffect : Prop :=
  ∀ (s : State) (n : Nat) (rest : List Event), n < 7 → s.schedule = .readReg n :: rest →
    ∃ v, hostReg n s = some v ∧
      step s = .next { s with schedule := rest, observed := v :: s.observed }

/-- `readReg(n)` for `n ≥ 7` is refused (R45). -/
def Obligations.UnmappedRegisterIsRefused : Prop :=
  ∀ (s : State) (n : Nat) (rest : List Event), 7 ≤ n → s.schedule = .readReg n :: rest →
    step s = .refused (.readRegUnmapped n)

/-- The fields of `STATUS` (R42): every field at its bits, the reserved bits 0, `ERR_ANY` the OR of
the six sticky bits (R222), and the whole word 0 after reset. -/
def Obligations.StatusLayout : Prop :=
  (∀ s : State, ∃ v, hostReg 0 s = some v ∧
    v.getLsbD 0 = s.tileValid ∧
    (v.getLsbD 1 = true ↔ s.cmdReg ≠ none) ∧
    (v.getLsbD 2 = true ↔ ∃ k, k < 6 ∧ s.errstat.getLsbD k = true) ∧
    v.getLsbD 3 = false ∧
    v.extractLsb' 4 4 = s.lastCode ∧
    v.extractLsb' 8 6 = s.recLen ∧
    v.getLsbD 14 = s.recNonhex ∧
    v.extractLsb' 15 17 = 0) ∧
  ∀ p : Params, hostReg 0 (State.resetWith p) = some 0

/-- Host registers 1 to 6: the sticky bits in [5:0] above zeros (R43), `RESULT` whole, and the
16-bit elements in [15:0] above zeros (R44). -/
def Obligations.OtherRegisterLayouts : Prop :=
  ∀ s : State,
    (∃ v, hostReg 1 s = some v ∧ v.extractLsb' 0 6 = s.errstat ∧ v.extractLsb' 6 26 = 0) ∧
    hostReg 2 s = some s.result ∧
    (∃ v, hostReg 3 s = some v ∧ v.extractLsb' 0 16 = s.canvasW ∧ v.extractLsb' 16 16 = 0) ∧
    (∃ v, hostReg 4 s = some v ∧ v.extractLsb' 0 16 = s.canvasH ∧ v.extractLsb' 16 16 = 0) ∧
    (∃ v, hostReg 5 s = some v ∧ v.extractLsb' 0 16 = s.dpiX ∧ v.extractLsb' 16 16 = 0) ∧
    (∃ v, hostReg 6 s = some v ∧ v.extractLsb' 0 16 = s.dpiY ∧ v.extractLsb' 16 16 = 0)

/-! ### Reset and the invariant -/

/-- The reset values of R48's table, for every choice of the `OPEN` parameters; `REC_NIB` and `TILE`
are unspecified there and nothing is said of them. -/
def Obligations.ResetValues : Prop :=
  (∀ p : Params, ∀ s : State, s = State.resetWith p →
    s.recLen = 0 ∧ s.recNonhex = false ∧ s.tileValid = false ∧
    (∀ i : Shade, palEntry s.pal 0 i = paletteEntry p.paletteGray i) ∧
    (∀ i : Shade, palEntry s.pal 1 i = paletteEntry p.paletteGreen i) ∧
    s.canvasW = 0 ∧ s.canvasH = 0 ∧ (∀ x y : Nat, s.hasPixel x y = false) ∧
    s.dpiX = 0 ∧ s.dpiY = 0 ∧ s.result = 0 ∧ s.lastCode = 0 ∧ s.errstat = 0 ∧
    s.cmdReg = none) ∧
  State.reset = State.resetWith Config.params

/-- The reset event sets every element of the block to its reset value in one step and discards a
pending command without executing it (R240). That the parameters, the drawn values, the schedule
and the host's reads go on is the model's choice (notes/assumptions/1.md, 2.md and 3.md), and the
values of `REC_NIB` and `TILE` are (4.md). -/
def Obligations.ResetEventRestoresResetValues : Prop :=
  ∀ (s : State) (rest : List Event), s.schedule = .reset :: rest →
    step s = .next
      { State.resetWith s.params with
        draws := s.draws, schedule := rest, observed := s.observed }

/-- The reset state meets the invariant. -/
def Obligations.ResetMeetsInvariant : Prop :=
  ∀ p : Params, Inv (State.resetWith p)

/-- Every step keeps the invariant: the framebuffer store stays canonical and inside the canvas, the
canvas inside `FB_MAX_PIXELS` (R30), codes stay in 0..7 (R211), `RESULT[31:24]` stays 0 (R152,
R174), and the code of a programming error never stands without its sticky bit (R213). -/
def Obligations.EveryStepKeepsInvariant : Prop :=
  ∀ s t : State, Inv s → step s = .next t → Inv t

/-! ### The tile unpacker -/

/-- The character functions (R8), over all 256 code units. -/
def Obligations.CharacterFunctions : Prop :=
  ∀ ch : CodeUnit,
    (isStrip ch = true ↔ ch = 0x20 ∨ ch = 0x0D) ∧
    (isHex ch = true ↔ (0x30 ≤ ch.toNat ∧ ch.toNat ≤ 0x39) ∨ (0x41 ≤ ch.toNat ∧ ch.toNat ≤ 0x46) ∨
      (0x61 ≤ ch.toNat ∧ ch.toNat ≤ 0x66)) ∧
    (0x30 ≤ ch.toNat → ch.toNat ≤ 0x39 → (hexval ch).toNat = ch.toNat - 0x30) ∧
    (0x41 ≤ ch.toNat → ch.toNat ≤ 0x46 → (hexval ch).toNat = ch.toNat - 0x41 + 10) ∧
    (0x61 ≤ ch.toNat → ch.toNat ≤ 0x66 → (hexval ch).toNat = ch.toNat - 0x61 + 10) ∧
    (isHex ch = false → hexval ch = 0)

/-- REC_BEGIN (R100): its word; it empties the record assembler and touches nothing else but
`LAST_CODE`. -/
def Obligations.RecBeginEmptiesAssembler : Prop :=
  encode .recBegin = 0x01#8 ++ 0#56 ∧
  ∀ s : State,
    exec .recBegin s = .next { s with recLen := 0, recNonhex := false, lastCode := 0 }

/-- REC_CHAR (R101): its word; a space or carriage return is dropped; any other character is stored
below position 32, remembered if it is no hex digit, and counted up to 63. -/
def Obligations.RecCharKeepsOrDrops : Prop :=
  ∀ ch : CodeUnit, encode (.recChar ch) = 0x02#8 ++ 0#48 ++ ch ∧
  ∀ s : State,
    (ch = 0x20 ∨ ch = 0x0D → exec (.recChar ch) s = .next { s with lastCode := 0 }) ∧
    (ch ≠ 0x20 → ch ≠ 0x0D → ∃ nib : Vector Nibble 32,
      exec (.recChar ch) s = .next
        { s with
          recNib := nib
          recNonhex := s.recNonhex || !isHex ch
          recLen := if s.recLen = 63 then 63 else s.recLen + 1
          lastCode := 0 } ∧
      ∀ k : Fin 32, nib.get k = if k.val = s.recLen.toNat then hexval ch else s.recNib.get k)

/-- After 63 or more kept characters `REC_LEN` is 63, and REC_END finds the record invalid with
code 1 (R102). -/
def Obligations.LongRecordSaturates : Prop :=
  ∀ (s : State) (cs : List CodeUnit), s.cmdReg = none → (∀ ch ∈ cs, isStrip ch = false) →
    63 ≤ cs.length →
    let t := hostExecAll (.recBegin :: cs.map Instr.recChar) s
    t.recLen = 63 ∧ exec .recEnd t =
      .next { t with tileValid := false, recLen := 0, recNonhex := false, lastCode := 1 }

/-- REC_END (R103): its word; a record of the wrong length ends with code 1, else one with a
character that is no digit with code 2, no entry of `TILE` written and `TILE_VALID` cleared; a valid
one is unpacked: shade `8j + i` is bit `7 − i` of the high-plane byte `byte[2j+1]` above bit `7 − i`
of the low-plane byte `byte[2j]`, byte `k` being `REC_NIB[2k] × 16 + REC_NIB[2k+1]` (R106). The
assembler is emptied in every case, and no `ERRSTAT` bit is set. -/
def Obligations.RecEndDecodesOrRefuses : Prop :=
  encode .recEnd = 0x03#8 ++ 0#56 ∧
  ∀ s : State,
    (s.recLen ≠ 32 → exec .recEnd s = .next
      { s with tileValid := false, recLen := 0, recNonhex := false, lastCode := 1 }) ∧
    (s.recLen = 32 → s.recNonhex = true → exec .recEnd s = .next
      { s with tileValid := false, recLen := 0, recNonhex := false, lastCode := 2 }) ∧
    (s.recLen = 32 → s.recNonhex = false → ∃ tile : Vector Shade 64,
      exec .recEnd s = .next
        { s with
          tile := tile, tileValid := true, recLen := 0, recNonhex := false, lastCode := 0 } ∧
      ∀ j i : Fin 8,
        let byte : Fin 16 → Nat := fun k =>
          (s.recNib.get ⟨2 * k.val, by omega⟩).toNat * 16 +
            (s.recNib.get ⟨2 * k.val + 1, by omega⟩).toNat
        let hi := byte ⟨2 * j.val + 1, by omega⟩
        let lo := byte ⟨2 * j.val, by omega⟩
        (tile.get ⟨8 * j.val + i.val, by omega⟩).toNat =
          2 * (hi / 2 ^ (7 - i.val) % 2) + lo / 2 ^ (7 - i.val) % 2)

/-- REC_END depends only on the kept characters: two blocks in any two states given records with the
same kept characters end with the same code, the same `TILE_VALID` and, when the record is valid,
the same tile (R108). -/
def Obligations.RecordDecodeIsPure : Prop :=
  ∀ (s s' : State) (r r' : List CodeUnit), s.cmdReg = none → s'.cmdReg = none →
    r.filter (fun ch => !isStrip ch) = r'.filter (fun ch => !isStrip ch) →
    (hostRecord r s).1 = (hostRecord r' s').1 ∧
    (hostRecord r s).2.tileValid = (hostRecord r' s').2.tileValid ∧
    ((hostRecord r s).1 = 0 → (hostRecord r s).2.tile = (hostRecord r' s').2.tile)

/-- `RECORD "s"` refines the source's decoder (R111): it ends valid with exactly the decoded tile when
`decode` returns one, and invalid with code 1 or 2, the tile untouched, when `decode` returns
`invalid`; the rest of the block is as it was. -/
def Obligations.RecordRefinesSourceDecoder : Prop :=
  ∀ (s : State) (r : List CodeUnit), s.cmdReg = none →
    ∃ nib : Vector Nibble 32,
      match sourceDecode r with
      | some tile =>
        hostRecord r s = (0, { s with
          recNib := nib, tile := tile, tileValid := true
          recLen := 0, recNonhex := false, lastCode := 0 })
      | none =>
        ∃ code : BitVec 4, (code = 1 ∨ code = 2) ∧
          hostRecord r s = (code, { s with
            recNib := nib, tileValid := false
            recLen := 0, recNonhex := false, lastCode := code })

/-- RDSHADE (R110): its word; it reads the tile entry, and is NOTILE with `RESULT` unchanged when
there is no tile. -/
def Obligations.RdshadeReadsTileEntry : Prop :=
  ∀ idx : BitVec 6, encode (.rdshade idx) = 0x04#8 ++ 0#50 ++ idx ∧
  ∀ s : State,
    (s.tileValid = true → exec (.rdshade idx) s = .next
      { s with
        result := (s.tile.get ⟨idx.toNat, idx.isLt⟩).setWidth 32, lastCode := 0 }) ∧
    (s.tileValid = false → exec (.rdshade idx) s = .next
      { s with errstat := s.errstat ||| 0b010000, lastCode := 3 })

/-! ### The canvas compositor -/

/-- The framebuffer's linear addresses (R61): pixel `(x, y)` is at `y × CANVAS_W + x`; `MemRead` and
`MemWrite` are `FbRead` and `FbWrite` at the pixel of the address; and what a read gives after a
write is the value written, at every other address what was there. -/
def Obligations.LinearAddressReadsLastWrite : Prop :=
  ∀ s : State,
    (∀ x y : Nat, s.hasPixel x y = true →
      y * s.canvasW.toNat + x < s.pixelCount ∧
      memRead s (y * s.canvasW.toNat + x) = fbRead s x y) ∧
    ∀ (a b : Nat) (v : Rgb), a < s.pixelCount → b < s.pixelCount →
      s.hasPixel (a % s.canvasW.toNat) (a / s.canvasW.toNat) = true ∧
      memRead s a = fbRead s (a % s.canvasW.toNat) (a / s.canvasW.toNat) ∧
      memWrite a v s = fbWrite (a % s.canvasW.toNat) (a / s.canvasW.toNat) v s ∧
      memRead (memWrite a v s) b = if b = a then .defined v else memRead s b

/-- ALLOC (R131, R132): its word; BADDIM and nothing else when the canvas does not fit; with the same
dimensions the buffer is kept; with other dimensions every pixel of the new canvas is `Undef`. -/
def Obligations.AllocReallocates : Prop :=
  ∀ w h : Dim, encode (.alloc w h) = 0x10#8 ++ 0#24 ++ w ++ h ∧
  ∀ s : State,
    (s.params.fbMaxPixels < w.toNat * h.toNat → exec (.alloc w h) s = .next
      { s with errstat := s.errstat ||| 0b000100, lastCode := 6 }) ∧
    (w.toNat * h.toNat ≤ s.params.fbMaxPixels → w = s.canvasW → h = s.canvasH →
      exec (.alloc w h) s = .next { s with lastCode := 0 }) ∧
    (w.toNat * h.toNat ≤ s.params.fbMaxPixels → ¬(w = s.canvasW ∧ h = s.canvasH) →
      ∃ m : Memory, exec (.alloc w h) s = .next
          { s with canvasW := w, canvasH := h, fb := m, lastCode := 0 } ∧
        ∀ x y : Nat, x < w.toNat → y < h.toNat → Memory.read (linearAddr w x y) m = .undef)

/-- FILL (R133): its word; it makes every pixel of the canvas the colour and changes nothing else. -/
def Obligations.FillSetsEveryPixel : Prop :=
  ∀ c : Rgb, encode (.fill c) = 0x11#8 ++ 0#32 ++ c ∧
  ∀ s : State, ∃ m : Memory,
    exec (.fill c) s = .next { s with fb := m, lastCode := 0 } ∧
    ∀ x y : Nat, x < s.canvasW.toNat → y < s.canvasH.toNat →
      Memory.read (linearAddr s.canvasW x y) m = .defined c

/-- A PAINT that passes its checks (R134, R135, R139): pixel `(x, y)` of the destination rectangle
gets the colour of logical pixel `((x − x0) div sx, (y − y0) div sy)`, every other pixel of the
canvas is as it was, and nothing else changes; `TILE_VALID` stays 1 (R137). -/
def Obligations.PaintScalesTileIntoRectangle : Prop :=
  ∀ (s : State) (bank : Bank) (col row : Dim) (sx sy : Scale), Memory.wf s.fb = true →
    sx ≠ 0 → sy ≠ 0 → s.tileValid = true →
    let x0 := col.toNat * 8 * sx.toNat
    let y0 := row.toNat * 8 * sy.toNat
    x0 + 8 * sx.toNat ≤ s.canvasW.toNat → y0 + 8 * sy.toNat ≤ s.canvasH.toNat →
    ∃ m : Memory,
      exec (.paint bank col row sx sy) s = .next { s with fb := m, lastCode := 0 } ∧
      ∀ x y : Nat, x < s.canvasW.toNat → y < s.canvasH.toNat →
        (x0 ≤ x → x < x0 + 8 * sx.toNat → y0 ≤ y → y < y0 + 8 * sy.toNat →
          ∃ r c : Fin 8, r.val = (y - y0) / sy.toNat ∧ c.val = (x - x0) / sx.toNat ∧
            Memory.read (linearAddr s.canvasW x y) m =
              .defined (palEntry s.pal bank (s.tile.get ⟨r.val * 8 + c.val, by omega⟩))) ∧
        (¬(x0 ≤ x ∧ x < x0 + 8 * sx.toNat ∧ y0 ≤ y ∧ y < y0 + 8 * sy.toNat) →
          Memory.read (linearAddr s.canvasW x y) m = fbRead s x y)

/-- PAINT is its pseudocode (R134): its word; the checks BADARG, NOTILE, OOB in that order (R136), a
failing one changing nothing but its sticky bit and `LAST_CODE`; and else the four nested loops of
`FbWrite` in their own order, which give the very state that the model's one pass over the rows
gives. -/
def Obligations.PaintFollowsItsPseudocode : Prop :=
  ∀ (bank : Bank) (col row : Dim) (sx sy : Scale),
    encode (.paint bank col row sx sy) = 0x12#8 ++ 0#7 ++ bank ++ col ++ row ++ sx ++ sy ∧
  ∀ s : State,
    (sx = 0 ∨ sy = 0 → exec (.paint bank col row sx sy) s = .next
      { s with errstat := s.errstat ||| 0b000010, lastCode := 5 }) ∧
    (sx ≠ 0 → sy ≠ 0 → s.tileValid = false → exec (.paint bank col row sx sy) s = .next
      { s with errstat := s.errstat ||| 0b010000, lastCode := 3 }) ∧
    (sx ≠ 0 → sy ≠ 0 → s.tileValid = true →
      (s.canvasW.toNat < col.toNat * 8 * sx.toNat + 8 * sx.toNat ∨
        s.canvasH.toNat < row.toNat * 8 * sy.toNat + 8 * sy.toNat) →
      exec (.paint bank col row sx sy) s = .next
        { s with errstat := s.errstat ||| 0b001000, lastCode := 4 }) ∧
    (sx ≠ 0 → sy ≠ 0 → s.tileValid = true →
      col.toNat * 8 * sx.toNat + 8 * sx.toNat ≤ s.canvasW.toNat →
      row.toNat * 8 * sy.toNat + 8 * sy.toNat ≤ s.canvasH.toNat → Memory.wf s.fb = true →
      exec (.paint bank col row sx sy) s = .next (finish .ok
        ((List.finRange 8).foldl (fun u r =>
          (List.finRange 8).foldl (fun u c =>
            (List.range sy.toNat).foldl (fun u dy =>
              (List.range sx.toNat).foldl (fun u dx =>
                fbWrite ((col.toNat * 8 + c.val) * sx.toNat + dx)
                  ((row.toNat * 8 + r.val) * sy.toNat + dy)
                  (palEntry s.pal bank (s.tile.get ⟨r.val * 8 + c.val, by omega⟩)) u)
                u) u) u) s)))

/-- REPLACE (R140): its word; it turns every pixel that is `Defined(old)` into `Defined(new)`, leaves
other colours and `Undef` pixels as they are, and changes nothing else. -/
def Obligations.ReplaceRewritesMatchingPixels : Prop :=
  ∀ old new : Rgb, encode (.replace old new) = 0x13#8 ++ 0#8 ++ old ++ new ∧
  ∀ s : State, ∃ m : Memory,
    exec (.replace old new) s = .next { s with fb := m, lastCode := 0 } ∧
    ∀ x y : Nat, x < s.canvasW.toNat → y < s.canvasH.toNat →
      (fbRead s x y = .defined old → Memory.read (linearAddr s.canvasW x y) m = .defined new) ∧
      (fbRead s x y ≠ .defined old → Memory.read (linearAddr s.canvasW x y) m = fbRead s x y)

/-- A sequence of REPLACEs takes each pixel through the functions of its commands in issue order, and
an `Undef` pixel stays `Undef` throughout (R142, R145). -/
def Obligations.ReplacesCompose : Prop :=
  ∀ (s : State) (l : List (Rgb × Rgb)) (x y : Nat), s.cmdReg = none → s.hasPixel x y = true →
    let t := hostExecAll (l.map fun p => .replace p.1 p.2) s
    (∀ v, fbRead s x y = .defined v →
      fbRead t x y = .defined (l.foldl (fun v p => replaceColour p.1 p.2 v) v)) ∧
    (fbRead s x y = .undef → fbRead t x y = .undef)

/-- The palette swap (R143): under SWAP(A,B), on a canvas whose pixels all have colours of `A`, the
four REPLACEs turn every pixel of colour `Ak` into `Bk`, and change nothing but pixels and
`LAST_CODE`. -/
def Obligations.PaletteSwapRetintsCanvas : Prop :=
  ∀ (s : State) (A B : Palette), s.cmdReg = none → swapOk A B → paintedFrom A s →
    let t := hostExecAll (palswapCommands A B) s
    (∀ (x y : Nat) (k : Shade), s.hasPixel x y = true →
      fbRead s x y = .defined (paletteEntry A k) → fbRead t x y = .defined (paletteEntry B k)) ∧
    t = { s with fb := t.fb, lastCode := 0 }

/-- The round trip (R144): under SWAP both ways, PALSWAP there and back restores every pixel of a
canvas painted from `A`. -/
def Obligations.PaletteSwapRoundTrip : Prop :=
  ∀ (s : State) (A B : Palette), s.cmdReg = none → swapOk A B → swapOk B A → paintedFrom A s →
    Memory.wf s.fb = true → (∀ p ∈ s.fb, p.1 < s.pixelCount) →
    hostExecAll (palswapCommands A B ++ palswapCommands B A) s = { s with lastCode := 0 }

/-- Order matters (R146): with the rotated palette, every pixel of a canvas painted from `A` ends
`0xFFFFFF`. -/
def Obligations.RotatedPaletteCollapses : Prop :=
  ∀ (s : State), s.cmdReg = none →
    let A : Palette := #v[0xFFFFFF, 0xAAAAAA, 0x555555, 0x000000]
    let B : Palette := #v[0xAAAAAA, 0x555555, 0x000000, 0xFFFFFF]
    ¬ swapOk A B ∧
    (paintedFrom A s → ∀ x y : Nat, s.hasPixel x y = true →
      fbRead (hostExecAll (palswapCommands A B) s) x y = .defined 0xFFFFFF)

/-- The palette toggle (R200, R248). When the host's palettes satisfy SWAP from the shown palette `A` to
the other one `B`, and from `B` to `A` too if it toggles back, the toggle is the four REPLACEs in
index order with nothing between them, and `sel` moves; and a host that toggles back then gets the
canvas back that was painted from `A` (R144). That the host checks before the first REPLACE, and that
it issues nothing and stops when the check fails, is the model's choice (notes/assumptions/17.md). -/
def Obligations.ToggleChecksItsPalettes : Prop :=
  ∀ (c : HostConfig) (back : Bool) (s : State), s.cmdReg = none → hostParamsValid c.params = true →
    let other : HostConfig := { c with sel := ~~~c.sel }
    let A := c.palettes.get c.sel.toFin
    let B := c.palettes.get other.sel.toFin
    (swapOk A B → (back = true → swapOk B A) →
      ∃ t, paletteToggle c back s = .toggled other t ∧
        t = hostExecAll [.replace (paletteEntry A 0) (paletteEntry B 0),
          .replace (paletteEntry A 1) (paletteEntry B 1),
          .replace (paletteEntry A 2) (paletteEntry B 2),
          .replace (paletteEntry A 3) (paletteEntry B 3)] s ∧
        (back = true → paintedFrom A s → Memory.wf s.fb = true →
          (∀ p ∈ s.fb, p.1 < s.pixelCount) →
          ∀ again : Bool, paletteToggle other again t = .toggled c { s with lastCode := 0 })) ∧
    (¬ (swapOk A B ∧ (back = true → swapOk B A)) →
      paletteToggle c back s = .stopped .swapConditionFails s)

/-- On a canvas with no pixels (R147): FILL and REPLACE succeed and change nothing; PAINT with valid
scale and tile is OOB, and so is RDPIX. The premise on the store is the invariant's: no pixel is
stored that the canvas does not have. -/
def Obligations.EmptyCanvasCommands : Prop :=
  ∀ s : State, s.canvasW = 0 ∨ s.canvasH = 0 → (∀ p ∈ s.fb, p.1 < s.pixelCount) →
    (∀ c, exec (.fill c) s = .next { s with lastCode := 0 }) ∧
    (∀ old new, exec (.replace old new) s = .next { s with lastCode := 0 }) ∧
    (∀ bank col row sx sy, sx ≠ 0 → sy ≠ 0 → s.tileValid = true →
      exec (.paint bank col row sx sy) s = .next
        { s with errstat := s.errstat ||| 0b001000, lastCode := 4 }) ∧
    ∀ x y, exec (.rdpix x y) s = .next
      { s with errstat := s.errstat ||| 0b001000, lastCode := 4 }

/-- MATERIALIZE (R148): its word; it latches the two DPI values and touches no pixel. -/
def Obligations.MaterializeLatchesDpi : Prop :=
  ∀ dpiX dpiY : Dim, encode (.materialize dpiX dpiY) = 0x14#8 ++ 0#24 ++ dpiX ++ dpiY ∧
  ∀ s : State,
    exec (.materialize dpiX dpiY) s = .next { s with dpiX := dpiX, dpiY := dpiY, lastCode := 0 }

/-- The declared image stays equal to the live state until the next ALLOC, FILL, PAINT, REPLACE or
MATERIALIZE executes: no other command changes it (R149). -/
def Obligations.SnapshotKeptByOtherCommands : Prop :=
  ∀ (i : Instr) (s t : State),
    (match i with
      | .alloc _ _ | .fill _ | .paint _ _ _ _ _ | .replace _ _ | .materialize _ _ => False
      | _ => True) →
    exec i s = .next t → snapshot t = snapshot s

/-- RDPIX (R151): its word; OOB outside the canvas with `RESULT` unchanged; a `Defined` pixel's
colour; for an `Undef` pixel some 24-bit value, whatever it is. Of the model's own draw counter it
is said only that it may move (notes/assumptions/2.md). -/
def Obligations.RdpixReadsPixel : Prop :=
  ∀ x y : Dim, encode (.rdpix x y) = 0x15#8 ++ 0#24 ++ x ++ y ∧
  ∀ s : State,
    (s.canvasW.toNat ≤ x.toNat ∨ s.canvasH.toNat ≤ y.toNat → exec (.rdpix x y) s = .next
      { s with errstat := s.errstat ||| 0b001000, lastCode := 4 }) ∧
    (x.toNat < s.canvasW.toNat → y.toNat < s.canvasH.toNat →
      (∀ c, fbRead s x.toNat y.toNat = .defined c →
        exec (.rdpix x y) s = .next { s with result := c.setWidth 32, lastCode := 0 }) ∧
      (fbRead s x.toNat y.toNat = .undef → ∃ (v : Rgb) (d : Nat),
        exec (.rdpix x y) s = .next
          { s with result := v.setWidth 32, draws := d, lastCode := 0 }))

/-! ### Palette and control -/

/-- SETPAL (R172): its word; it writes exactly one of the eight entries. -/
def Obligations.SetpalWritesOneEntry : Prop :=
  ∀ (bank : Bank) (idx : Shade) (c : Rgb),
    encode (.setpal bank idx c) = 0x20#8 ++ 0#7 ++ bank ++ 0#14 ++ idx ++ 0#8 ++ c ∧
  ∀ s : State, ∃ pal : Vector Palette 2,
    exec (.setpal bank idx c) s = .next { s with pal := pal, lastCode := 0 } ∧
    ∀ (b : Bank) (i : Shade),
      palEntry pal b i = if b = bank ∧ i = idx then c else palEntry s.pal b i

/-- RDPAL (R174): its word; it reads an entry into `RESULT[23:0]` with zeros above. -/
def Obligations.RdpalReadsEntry : Prop :=
  ∀ (bank : Bank) (idx : Shade),
    encode (.rdpal bank idx) = 0x21#8 ++ 0#7 ++ bank ++ 0#14 ++ idx ++ 0#32 ∧
  ∀ s : State, ∃ v : HostWord,
    exec (.rdpal bank idx) s = .next { s with result := v, lastCode := 0 } ∧
    v.extractLsb' 0 24 = palEntry s.pal bank idx ∧ v.extractLsb' 24 8 = 0

/-- NOP (R170): its word; it writes `LAST_CODE` = 0 and nothing else. -/
def Obligations.NopWritesOnlyLastCode : Prop :=
  encode .nop = 0x00#8 ++ 0#56 ∧ ∀ s : State, exec .nop s = .next { s with lastCode := 0 }

/-- CLRERR (R176): its word; it clears exactly the sticky bits its mask names. -/
def Obligations.ClrerrClearsMaskedBits : Prop :=
  ∀ mask : BitVec 6, encode (.clrerr mask) = 0x30#8 ++ 0#50 ++ mask ∧
  ∀ s : State, ∃ e : BitVec 6,
    exec (.clrerr mask) s = .next { s with errstat := e, lastCode := 0 } ∧
    ∀ n : Fin 6, e.getLsbD n.val = (s.errstat.getLsbD n.val && !mask.getLsbD n.val)

/-! ### Errors and who writes what -/

/-- A command that meets a programming error (code 3 to 7) sets that error's bit, ends with its code
and changes nothing else (R213, with R211's table of codes and bits). -/
def Obligations.ProgrammingErrorsArePrecise : Prop :=
  ∀ (w : CmdWord) (s t : State), s.cmdReg = some w → s.schedule = [] → step s = .next t →
    3 ≤ t.lastCode.toNat →
    ∃ bit : BitVec 6,
      ((t.lastCode = 3 ∧ bit = 0b010000) ∨ (t.lastCode = 4 ∧ bit = 0b001000) ∨
        (t.lastCode = 5 ∧ bit = 0b000010) ∨ (t.lastCode = 6 ∧ bit = 0b000100) ∨
        (t.lastCode = 7 ∧ bit = 0b000001)) ∧
      t = { s with errstat := s.errstat ||| bit, lastCode := t.lastCode, cmdReg := none }

/-- No command other than CLRERR clears a sticky bit, and no move of the agents but reset and the
sequencer's execution of a CLRERR does (R38). -/
def Obligations.StickyBitsStayUntilClrerr : Prop :=
  ∀ (s t : State) (n : Nat), step s = .next t →
    (∀ rest, s.schedule ≠ .reset :: rest) →
    (∀ w mask, s.cmdReg = some w → decode w ≠ .ok (.clrerr mask)) →
    s.errstat.getLsbD n = true → t.errstat.getLsbD n = true

/-- Who writes which status field: R47's table for the 14 commands. -/
def Obligations.CommandsWriteOnlyTheirFields : Prop :=
  ∀ (i : Instr) (s t : State), exec i s = .next t →
    (i ≠ .recEnd → t.tileValid = s.tileValid ∧ t.tile = s.tile) ∧
    (i ≠ .recBegin → i ≠ .recEnd → (∀ ch, i ≠ .recChar ch) →
      t.recLen = s.recLen ∧ t.recNonhex = s.recNonhex ∧ t.recNib = s.recNib) ∧
    ((∀ n, i ≠ .rdshade n) → (∀ x y, i ≠ .rdpix x y) → (∀ b n, i ≠ .rdpal b n) →
      t.result = s.result) ∧
    ((∀ w h, i ≠ .alloc w h) → t.canvasW = s.canvasW ∧ t.canvasH = s.canvasH) ∧
    ((∀ x y, i ≠ .materialize x y) → t.dpiX = s.dpiX ∧ t.dpiY = s.dpiY) ∧
    ((∀ b n c, i ≠ .setpal b n c) → t.pal = s.pal) ∧
    ((∀ w h, i ≠ .alloc w h) → (∀ c, i ≠ .fill c) → (∀ b c r x y, i ≠ .paint b c r x y) →
      (∀ o n, i ≠ .replace o n) → t.fb = s.fb) ∧
    t.cmdReg = s.cmdReg

/-- No status flag but `TILE_VALID` is read as a condition: whatever `ERRSTAT`, `LAST_CODE` and
`RESULT` hold, the next command executes the same (R47, R220). One clause is the model's choice: an
RDPIX of an `Undef` pixel gives the same `RESULT` in the two states because they hold the same draw
counter (notes/assumptions/2.md); the rules let the two draws differ (R152). -/
def Obligations.StatusNeverSteersCommands : Prop :=
  ∀ (i : Instr) (s t : State) (e : BitVec 6) (c : BitVec 4) (v : HostWord), exec i s = .next t →
    ∃ t', exec i { s with errstat := e, lastCode := c, result := v } = .next t' ∧
      t' = { t with errstat := t'.errstat, result := t'.result } ∧
      (t'.result = t.result ∨ (t'.result = v ∧ t.result = s.result))

/-! ### The reference host -/

/-- The layout with the source's values (R195, R196, R205): `S = 3`, and 47 valid records give two
rows on a canvas of 480 × 48, tiles 0..39 painted at `(t mod 20, t div 20)`. -/
def Obligations.HostLayoutExample : Prop :=
  ∀ (c : HostConfig), c.params.tilesPerRow = 20 → c.params.targetWidth = 480 →
    hostParamsValid c.params = true ∧ hostScale c.params = 3 ∧ hostRows c.params 47 = 2 ∧
    hostWidth c.params = 480 ∧ hostHeight c.params 47 = 48 ∧
    ∀ t, t < 40 → tilePaint c t =
      .paint c.sel (BitVec.ofNat 16 (t % 20)) (BitVec.ofNat 16 (t / 20)) 3 3

/-- Which lines are skipped (R192, R193): those that start with `!`, `#`, `{` or `//`, and those that
hold nothing but spaces and carriage returns; every other line is a candidate record. And comment
filtering (R203): a capture of lines is the capture of the others alone, whatever number of skipped
lines stands before, between or after them. -/
def Obligations.SkippedLinesIssueNothing : Prop :=
  let skipped : List CodeUnit → Bool := fun l =>
    l.head? == some 0x21 || l.head? == some 0x23 || l.head? == some 0x7B ||
      l.take 2 == [0x2F, 0x2F] || l.all fun ch => ch == 0x20 || ch == 0x0D
  (∀ l : List CodeUnit, isCandidate l = !skipped l) ∧
  ∀ (c : HostConfig) (s : State) (lines : List (List CodeUnit)),
    (∀ l ∈ lines, ∀ ch ∈ l, ch ≠ 0x0A) →
    capture c (List.intercalate [0x0A] lines) s =
      capture c (List.intercalate [0x0A] (lines.filter fun l => !skipped l)) s

/-- What the read-out delivers (R199, R151): every pixel of the canvas once, a `Defined` pixel's colour
with zeros above it, for an `Undef` pixel some 24-bit value; and the block as it was, but for
`RESULT`, `LAST_CODE` and the model's draw counter (notes/assumptions/2.md). That the words come row
by row from the top, and the size and the DPI values from registers 3 to 6, is the model's choice and
reading (notes/assumptions/12.md); rule R199 names no order. -/
def Obligations.ReadOutDeliversEveryPixel : Prop :=
  ∀ s : State, s.cmdReg = none →
    let image := (readOut s).1
    let t := (readOut s).2
    image.width = s.canvasW ∧ image.height = s.canvasH ∧
    image.dpiX = s.dpiX ∧ image.dpiY = s.dpiY ∧ image.pixels.length = s.pixelCount ∧
    (∀ x y : Nat, s.hasPixel x y = true →
      (∀ c, fbRead s x y = .defined c →
        image.pixels[y * s.canvasW.toNat + x]? = some (c.setWidth 32)) ∧
      (fbRead s x y = .undef →
        ∃ v : Rgb, image.pixels[y * s.canvasW.toNat + x]? = some (v.setWidth 32))) ∧
    t = { s with result := t.result, lastCode := t.lastCode, draws := t.draws }

/-- The single-pass host (R202) delivers the same image as the two-pass one and leaves the same
canvas. -/
def Obligations.SinglePassGivesSameImage : Prop :=
  ∀ (c : HostConfig) (blob : List CodeUnit) (s t : State) (image : HostImage), s.cmdReg = none →
    capture c blob s = .published image t →
    ∃ t', captureSinglePass c blob s = .published image t' ∧ snapshot t' = snapshot t

/-- The whole pipeline (R191 to R199 with R135): a published capture has the canvas size of rule R196
for the number of valid records among all lines, the host's DPI values, and at every pixel the
colour of the valid tile whose grid cell it lies in: tile `(y div 8S) × TILES_PER_ROW + x div 8S`,
logical pixel `(x div S mod 8, y div S mod 8)`; and the image the host delivers has that size, those
DPI values and those colours. That the image's words stand row by row, `(x, y)` at place
`y × CANVAS_W + x`, is the model's choice (notes/assumptions/12.md); rule R199 names no order. -/
def Obligations.CapturePaintsEveryCell : Prop :=
  ∀ (c : HostConfig) (blob : List CodeUnit) (s t : State) (image : HostImage), s.cmdReg = none →
    capture c blob s = .published image t →
    let tiles := (splitLines blob).filterMap sourceDecode
    let S := hostScale c.params
    t.canvasW.toNat = c.params.tilesPerRow * 8 * S ∧
    t.canvasH.toNat = tiles.length / c.params.tilesPerRow * 8 * S ∧
    t.dpiX = c.params.dpiX ∧ t.dpiY = c.params.dpiY ∧
    image.width = t.canvasW ∧ image.height = t.canvasH ∧
    image.dpiX = t.dpiX ∧ image.dpiY = t.dpiY ∧ image.pixels.length = t.pixelCount ∧
    ∀ x y : Nat, t.hasPixel x y = true →
      ∃ tile, tiles[y / (8 * S) * c.params.tilesPerRow + x / (8 * S)]? = some tile ∧
        let colour := palEntry s.pal c.sel (tile.get ⟨y / S % 8 * 8 + x / S % 8, by omega⟩)
        fbRead t x y = .defined colour ∧
        image.pixels[y * t.canvasW.toNat + x]? = some (colour.setWidth 32)

/-- The reference host meets no programming error and no overrun (R196, R198, R245): a capture that
is published leaves every sticky bit as it was, so a run without error stays one (R230). -/
def Obligations.PublishedCaptureRaisesNoError : Prop :=
  ∀ (c : HostConfig) (blob : List CodeUnit) (s t : State) (image : HostImage), s.cmdReg = none →
    capture c blob s = .published image t →
    t.errstat = s.errstat ∧ (noError s → noError t)
end

