-- ==== Sys2Proof/Laws/Memory.lean ====
section
/-! SUPPORT. Laws of the framebuffer store (spec/20_memory.md rules R60, R61 and R74): what each operation's
result reads at each address, that each keeps the canonical form, and that canonical stores with
the same pixels are equal. -/

namespace Sys2Proof.Machine

/-! ### The canonical form -/

theorem Memory.risesFrom_cons {b a : Nat} {c : Rgb} {m : Memory} :
    Memory.risesFrom b ((a, c) :: m) = true ↔ b ≤ a ∧ Memory.risesFrom (a + 1) m = true := by
  simp [Memory.risesFrom]

theorem Memory.risesFrom_mono {b b' : Nat} (hb : b' ≤ b) {m : Memory}
    (h : Memory.risesFrom b m = true) : Memory.risesFrom b' m = true := by
  cases m with
  | nil => rfl
  | cons p m =>
    obtain ⟨a, c⟩ := p
    rw [Memory.risesFrom_cons] at h ⊢
    exact ⟨by omega, h.2⟩

theorem Memory.le_of_mem {b : Nat} {m : Memory} (h : Memory.risesFrom b m = true)
    {p : Nat × Rgb} (hp : p ∈ m) : b ≤ p.1 := by
  induction m generalizing b with
  | nil => cases hp
  | cons q m ih =>
    obtain ⟨a, c⟩ := q
    rw [Memory.risesFrom_cons] at h
    rcases List.mem_cons.mp hp with rfl | hp
    · exact h.1
    · have := ih h.2 hp; omega

/-- Below the bound every address is unlisted. -/
theorem Memory.read_below {b a : Nat} {m : Memory} (h : Memory.risesFrom b m = true) (ha : a < b) :
    Memory.read a m = .undef := by
  induction m generalizing b with
  | nil => rfl
  | cons p m ih =>
    obtain ⟨d, c⟩ := p
    rw [Memory.risesFrom_cons] at h
    simp only [Memory.read, if_neg (show ¬ a = d by omega)]
    exact ih h.2 (by omega)

/-- In a canonical store, being listed and being read are one thing. -/
theorem Memory.mem_iff_read {b : Nat} {m : Memory} (h : Memory.risesFrom b m = true) (a : Nat)
    (c : Rgb) : (a, c) ∈ m ↔ Memory.read a m = .defined c := by
  induction m generalizing b with
  | nil => simp [Memory.read]
  | cons p m ih =>
    obtain ⟨d, e⟩ := p
    rw [Memory.risesFrom_cons] at h
    simp only [Memory.read, List.mem_cons, Prod.mk.injEq]
    by_cases had : a = d
    · subst had
      have hn : (a, c) ∉ m := fun hm => by have := Memory.le_of_mem h.2 hm; simp at this
      simp [hn, eq_comm]
    · simp [had, ih h.2]

/-- Canonical stores that read alike are equal: the form is canonical. -/
theorem Memory.ext {b : Nat} {m m' : Memory} (h : Memory.risesFrom b m = true)
    (h' : Memory.risesFrom b m' = true) (hr : ∀ a, Memory.read a m = Memory.read a m') : m = m' := by
  induction m generalizing b m' with
  | nil =>
    cases m' with
    | nil => rfl
    | cons p m' => obtain ⟨a, c⟩ := p; have := hr a; simp [Memory.read] at this
  | cons p m ih =>
    obtain ⟨a, c⟩ := p
    cases m' with
    | nil => have := hr a; simp [Memory.read] at this
    | cons p' m' =>
      obtain ⟨a', c'⟩ := p'
      rw [Memory.risesFrom_cons] at h h'
      have haa : a = a' := by
        rcases Nat.lt_trichotomy a a' with hl | he | hl
        · have := hr a
          rw [Memory.read_below (b := a') (m := (a', c') :: m')
            (by rw [Memory.risesFrom_cons]; exact ⟨le_rfl, h'.2⟩) hl] at this
          simp [Memory.read] at this
        · exact he
        · have := hr a'
          rw [Memory.read_below (b := a) (m := (a, c) :: m)
            (by rw [Memory.risesFrom_cons]; exact ⟨le_rfl, h.2⟩) hl] at this
          simp [Memory.read] at this
      subst haa
      have hc : c = c' := by have := hr a; simpa [Memory.read] using this
      subst hc
      congr 1
      refine ih h.2 h'.2 fun x => ?_
      by_cases hx : x = a
      · rw [Memory.read_below h.2 (by omega), Memory.read_below h'.2 (by omega)]
      · have := hr x; simpa [Memory.read, hx] using this

/-! ### One write -/

theorem Memory.write_rises {b a : Nat} {c : Rgb} {m : Memory} (h : Memory.risesFrom b m = true)
    (ha : b ≤ a) : Memory.risesFrom b (Memory.write a c m) = true := by
  induction m generalizing b with
  | nil => simp [Memory.write, Memory.risesFrom, ha]
  | cons p m ih =>
    obtain ⟨d, e⟩ := p
    rw [Memory.risesFrom_cons] at h
    simp only [Memory.write]
    split
    · simp [Memory.risesFrom_cons, ha, h.2]; omega
    · split
      · subst_vars; simp [Memory.risesFrom_cons, ha, h.2]
      · rw [Memory.risesFrom_cons]; exact ⟨h.1, ih h.2 (by omega)⟩

theorem Memory.write_wf {a : Nat} {c : Rgb} {m : Memory} (h : Memory.wf m = true) :
    Memory.wf (Memory.write a c m) = true :=
  Memory.write_rises h (Nat.zero_le a)

/-- Read after write (R74). -/
theorem Memory.read_write (x a : Nat) (c : Rgb) (m : Memory) :
    Memory.read x (Memory.write a c m) = if x = a then .defined c else Memory.read x m := by
  induction m with
  | nil => simp [Memory.write, Memory.read]
  | cons p m ih =>
    obtain ⟨d, e⟩ := p
    simp only [Memory.write]
    split
    · simp [Memory.read]
    · split
      · next h => subst h; by_cases hx : x = a <;> simp [Memory.read, hx]
      · next h =>
        simp only [Memory.read, ih]
        by_cases hx : x = d
        · subst hx; simp [Ne.symm h]
        · simp [hx]

/-! ### A written rectangle -/

theorem Memory.mergeCell_rises {k : Memory → Memory} {a : Nat} {c : Rgb} {m : Memory} {b : Nat}
    (hk : ∀ m, Memory.risesFrom (a + 1) m = true → Memory.risesFrom (a + 1) (k m) = true)
    (ha : b ≤ a) (h : Memory.risesFrom b m = true) :
    Memory.risesFrom b (Memory.mergeCell a c k m) = true := by
  induction m generalizing b with
  | nil => simp [Memory.mergeCell, Memory.risesFrom_cons, ha, hk [] rfl]
  | cons p m ih =>
    obtain ⟨d, e⟩ := p
    rw [Memory.risesFrom_cons] at h
    simp only [Memory.mergeCell]
    split
    · rw [Memory.risesFrom_cons]; exact ⟨h.1, ih (by omega) h.2⟩
    · split
      · subst_vars; rw [Memory.risesFrom_cons]; exact ⟨ha, hk _ h.2⟩
      · rw [Memory.risesFrom_cons]
        exact ⟨ha, hk _ (by rw [Memory.risesFrom_cons]; exact ⟨by omega, h.2⟩)⟩

theorem Memory.overlay_rises {new old : Memory} {b : Nat} (hn : Memory.risesFrom b new = true)
    (ho : Memory.risesFrom b old = true) : Memory.risesFrom b (Memory.overlay new old) = true := by
  induction new generalizing old b with
  | nil => exact ho
  | cons p new ih =>
    obtain ⟨a, c⟩ := p
    rw [Memory.risesFrom_cons] at hn
    exact Memory.mergeCell_rises (fun m hm => ih hn.2 hm) hn.1 ho

theorem Memory.overlay_wf {new old : Memory} (hn : Memory.wf new = true)
    (ho : Memory.wf old = true) : Memory.wf (Memory.overlay new old) = true :=
  Memory.overlay_rises hn ho

/-- A pixel where it is `Defined`, else the one under it. -/
def Pixel.over : Pixel → Pixel → Pixel
  | .undef, q => q
  | .defined c, _ => .defined c

theorem Memory.read_mergeCell {k : Memory → Memory} {a : Nat} {c : Rgb} {m : Memory} {b x : Nat}
    {p : Pixel} (h : Memory.risesFrom b m = true) (hp : x ≤ a → p = .undef)
    (hk : ∀ m, Memory.risesFrom (a + 1) m = true → Memory.read x (k m) = p.over (Memory.read x m)) :
    Memory.read x (Memory.mergeCell a c k m) =
      if x = a then .defined c else p.over (Memory.read x m) := by
  induction m generalizing b with
  | nil => simp [Memory.mergeCell, Memory.read, hk [] rfl]
  | cons q m ih =>
    obtain ⟨d, e⟩ := q
    rw [Memory.risesFrom_cons] at h
    simp only [Memory.mergeCell]
    split
    · next hda =>
      simp only [Memory.read, ih h.2]
      by_cases hx : x = d
      · subst hx; simp [hp (by omega), Pixel.over, show ¬ x = a by omega]
      · simp [hx]
    · split
      · next hda =>
        subst hda
        by_cases hx : x = d <;> simp [Memory.read, hx, hk m h.2]
      · next h1 h2 =>
        have hm : Memory.risesFrom (a + 1) ((d, e) :: m) = true := by
          rw [Memory.risesFrom_cons]; exact ⟨by omega, h.2⟩
        simp only [Memory.read, hk _ hm]

/-- What `overlay` reads: the new store's pixel where it has one, else the old one's. -/
theorem Memory.read_overlay {new old : Memory} {b : Nat} (hn : Memory.risesFrom b new = true)
    (ho : Memory.risesFrom b old = true) (x : Nat) :
    Memory.read x (Memory.overlay new old) = (Memory.read x new).over (Memory.read x old) := by
  induction new generalizing old b with
  | nil => rfl
  | cons p new ih =>
    obtain ⟨a, c⟩ := p
    rw [Memory.risesFrom_cons] at hn
    have hbelow : x ≤ a → Memory.read x new = .undef := fun hx =>
      Memory.read_below hn.2 (by omega)
    rw [Memory.overlay, Memory.read_mergeCell ho hbelow (fun m hm => ih hn.2 hm), Memory.read]
    split <;> rfl

/-! ### FILL and REPLACE -/

theorem Memory.range'_rises (b n : Nat) (c : Rgb) :
    Memory.risesFrom b ((List.range' b n).map fun a => (a, c)) = true := by
  induction n generalizing b with
  | zero => rfl
  | succ n ih => rw [List.range'_succ, List.map_cons, Memory.risesFrom_cons]; exact ⟨le_rfl, ih _⟩

theorem Memory.filled_wf (n : Nat) (c : Rgb) : Memory.wf (Memory.filled n c) = true := by
  rw [Memory.filled, List.range_eq_range']; exact Memory.range'_rises 0 n c

theorem Memory.read_filled (n : Nat) (c : Rgb) (a : Nat) :
    Memory.read a (Memory.filled n c) = if a < n then .defined c else .undef := by
  have hm := Memory.mem_iff_read (Memory.filled_wf n c) a
  split
  · next h => exact (hm c).mp (by simpa [Memory.filled] using h)
  · next h =>
    cases hr : Memory.read a (Memory.filled n c) with
    | undef => rfl
    | defined d => exact absurd ((hm d).mpr hr) (by simp [Memory.filled]; omega)

theorem Memory.replace_rises {b : Nat} (old new : Rgb) {m : Memory}
    (h : Memory.risesFrom b m = true) : Memory.risesFrom b (Memory.replace old new m) = true := by
  induction m generalizing b with
  | nil => rfl
  | cons p m ih =>
    obtain ⟨a, c⟩ := p
    rw [Memory.risesFrom_cons] at h
    rw [Memory.replace, List.map_cons, Memory.risesFrom_cons]
    exact ⟨h.1, ih h.2⟩

theorem Memory.replace_wf (old new : Rgb) {m : Memory} (h : Memory.wf m = true) :
    Memory.wf (Memory.replace old new m) = true :=
  Memory.replace_rises old new h

/-- What REPLACE does to one pixel (R140, R145). -/
def Pixel.replaced (old new : Rgb) : Pixel → Pixel
  | .undef => .undef
  | .defined c => .defined (if c = old then new else c)

theorem Memory.read_replace (old new : Rgb) (m : Memory) (a : Nat) :
    Memory.read a (Memory.replace old new m) = (Memory.read a m).replaced old new := by
  induction m with
  | nil => rfl
  | cons p m ih =>
    obtain ⟨d, c⟩ := p
    have ih' : Memory.read a (List.map _ m) = _ := ih
    simp only [Memory.replace, List.map_cons, Memory.read, ih']
    split <;> rfl

end Sys2Proof.Machine
end

