-- ==== Sys2Proof/Laws/State.lean ====
section
/-! SUPPORT. One lemma per state field for each shared update of the state, so that no proof about a command
unfolds a record update. Grouped by operation: the fields it writes first, then the ones it leaves. -/

namespace Sys2Proof.Machine

/-! ### `finish` (R210) -/

@[simp] theorem finish_lastCode (c : ResultCode) (s : State) : (finish c s).lastCode = c.bits := rfl
@[simp] theorem finish_recNib (c : ResultCode) (s : State) : (finish c s).recNib = s.recNib := rfl
@[simp] theorem finish_recLen (c : ResultCode) (s : State) : (finish c s).recLen = s.recLen := rfl
@[simp] theorem finish_recNonhex (c : ResultCode) (s : State) : (finish c s).recNonhex = s.recNonhex := rfl
@[simp] theorem finish_tile (c : ResultCode) (s : State) : (finish c s).tile = s.tile := rfl
@[simp] theorem finish_tileValid (c : ResultCode) (s : State) : (finish c s).tileValid = s.tileValid := rfl
@[simp] theorem finish_pal (c : ResultCode) (s : State) : (finish c s).pal = s.pal := rfl
@[simp] theorem finish_canvasW (c : ResultCode) (s : State) : (finish c s).canvasW = s.canvasW := rfl
@[simp] theorem finish_canvasH (c : ResultCode) (s : State) : (finish c s).canvasH = s.canvasH := rfl
@[simp] theorem finish_fb (c : ResultCode) (s : State) : (finish c s).fb = s.fb := rfl
@[simp] theorem finish_dpiX (c : ResultCode) (s : State) : (finish c s).dpiX = s.dpiX := rfl
@[simp] theorem finish_dpiY (c : ResultCode) (s : State) : (finish c s).dpiY = s.dpiY := rfl
@[simp] theorem finish_result (c : ResultCode) (s : State) : (finish c s).result = s.result := rfl
@[simp] theorem finish_errstat (c : ResultCode) (s : State) : (finish c s).errstat = s.errstat := rfl
@[simp] theorem finish_cmdReg (c : ResultCode) (s : State) : (finish c s).cmdReg = s.cmdReg := rfl
@[simp] theorem finish_params (c : ResultCode) (s : State) : (finish c s).params = s.params := rfl
@[simp] theorem finish_draws (c : ResultCode) (s : State) : (finish c s).draws = s.draws := rfl
@[simp] theorem finish_schedule (c : ResultCode) (s : State) : (finish c s).schedule = s.schedule := rfl
@[simp] theorem finish_observed (c : ResultCode) (s : State) : (finish c s).observed = s.observed := rfl

/-! ### `raise` (R213) -/

@[simp] theorem raise_lastCode (e : ErrorKind) (s : State) : (raise e s).lastCode = e.code.bits := rfl
@[simp] theorem raise_errstat (e : ErrorKind) (s : State) : (raise e s).errstat = s.errstat ||| e.stickyBit := rfl
@[simp] theorem raise_recNib (e : ErrorKind) (s : State) : (raise e s).recNib = s.recNib := rfl
@[simp] theorem raise_recLen (e : ErrorKind) (s : State) : (raise e s).recLen = s.recLen := rfl
@[simp] theorem raise_recNonhex (e : ErrorKind) (s : State) : (raise e s).recNonhex = s.recNonhex := rfl
@[simp] theorem raise_tile (e : ErrorKind) (s : State) : (raise e s).tile = s.tile := rfl
@[simp] theorem raise_tileValid (e : ErrorKind) (s : State) : (raise e s).tileValid = s.tileValid := rfl
@[simp] theorem raise_pal (e : ErrorKind) (s : State) : (raise e s).pal = s.pal := rfl
@[simp] theorem raise_canvasW (e : ErrorKind) (s : State) : (raise e s).canvasW = s.canvasW := rfl
@[simp] theorem raise_canvasH (e : ErrorKind) (s : State) : (raise e s).canvasH = s.canvasH := rfl
@[simp] theorem raise_fb (e : ErrorKind) (s : State) : (raise e s).fb = s.fb := rfl
@[simp] theorem raise_dpiX (e : ErrorKind) (s : State) : (raise e s).dpiX = s.dpiX := rfl
@[simp] theorem raise_dpiY (e : ErrorKind) (s : State) : (raise e s).dpiY = s.dpiY := rfl
@[simp] theorem raise_result (e : ErrorKind) (s : State) : (raise e s).result = s.result := rfl
@[simp] theorem raise_cmdReg (e : ErrorKind) (s : State) : (raise e s).cmdReg = s.cmdReg := rfl
@[simp] theorem raise_params (e : ErrorKind) (s : State) : (raise e s).params = s.params := rfl
@[simp] theorem raise_draws (e : ErrorKind) (s : State) : (raise e s).draws = s.draws := rfl
@[simp] theorem raise_schedule (e : ErrorKind) (s : State) : (raise e s).schedule = s.schedule := rfl
@[simp] theorem raise_observed (e : ErrorKind) (s : State) : (raise e s).observed = s.observed := rfl

/-! ### `emptyAssembler` (R100, R103) -/

@[simp] theorem emptyAssembler_recLen (s : State) : (emptyAssembler s).recLen = 0 := rfl
@[simp] theorem emptyAssembler_recNonhex (s : State) : (emptyAssembler s).recNonhex = false := rfl
@[simp] theorem emptyAssembler_recNib (s : State) : (emptyAssembler s).recNib = s.recNib := rfl
@[simp] theorem emptyAssembler_tile (s : State) : (emptyAssembler s).tile = s.tile := rfl
@[simp] theorem emptyAssembler_tileValid (s : State) : (emptyAssembler s).tileValid = s.tileValid := rfl
@[simp] theorem emptyAssembler_pal (s : State) : (emptyAssembler s).pal = s.pal := rfl
@[simp] theorem emptyAssembler_canvasW (s : State) : (emptyAssembler s).canvasW = s.canvasW := rfl
@[simp] theorem emptyAssembler_canvasH (s : State) : (emptyAssembler s).canvasH = s.canvasH := rfl
@[simp] theorem emptyAssembler_fb (s : State) : (emptyAssembler s).fb = s.fb := rfl
@[simp] theorem emptyAssembler_dpiX (s : State) : (emptyAssembler s).dpiX = s.dpiX := rfl
@[simp] theorem emptyAssembler_dpiY (s : State) : (emptyAssembler s).dpiY = s.dpiY := rfl
@[simp] theorem emptyAssembler_result (s : State) : (emptyAssembler s).result = s.result := rfl
@[simp] theorem emptyAssembler_lastCode (s : State) : (emptyAssembler s).lastCode = s.lastCode := rfl
@[simp] theorem emptyAssembler_errstat (s : State) : (emptyAssembler s).errstat = s.errstat := rfl
@[simp] theorem emptyAssembler_cmdReg (s : State) : (emptyAssembler s).cmdReg = s.cmdReg := rfl
@[simp] theorem emptyAssembler_params (s : State) : (emptyAssembler s).params = s.params := rfl
@[simp] theorem emptyAssembler_draws (s : State) : (emptyAssembler s).draws = s.draws := rfl
@[simp] theorem emptyAssembler_schedule (s : State) : (emptyAssembler s).schedule = s.schedule := rfl
@[simp] theorem emptyAssembler_observed (s : State) : (emptyAssembler s).observed = s.observed := rfl

/-! ### `pushKept` (R101) -/

@[simp] theorem pushKept_recNib (ch : CodeUnit) (s : State) : (pushKept ch s).recNib = storeNibble s.recNib s.recLen (hexval ch) := rfl
@[simp] theorem pushKept_recLen (ch : CodeUnit) (s : State) : (pushKept ch s).recLen = satSucc s.recLen := rfl
@[simp] theorem pushKept_recNonhex (ch : CodeUnit) (s : State) : (pushKept ch s).recNonhex = (s.recNonhex || !isHex ch) := rfl
@[simp] theorem pushKept_tile (ch : CodeUnit) (s : State) : (pushKept ch s).tile = s.tile := rfl
@[simp] theorem pushKept_tileValid (ch : CodeUnit) (s : State) : (pushKept ch s).tileValid = s.tileValid := rfl
@[simp] theorem pushKept_pal (ch : CodeUnit) (s : State) : (pushKept ch s).pal = s.pal := rfl
@[simp] theorem pushKept_canvasW (ch : CodeUnit) (s : State) : (pushKept ch s).canvasW = s.canvasW := rfl
@[simp] theorem pushKept_canvasH (ch : CodeUnit) (s : State) : (pushKept ch s).canvasH = s.canvasH := rfl
@[simp] theorem pushKept_fb (ch : CodeUnit) (s : State) : (pushKept ch s).fb = s.fb := rfl
@[simp] theorem pushKept_dpiX (ch : CodeUnit) (s : State) : (pushKept ch s).dpiX = s.dpiX := rfl
@[simp] theorem pushKept_dpiY (ch : CodeUnit) (s : State) : (pushKept ch s).dpiY = s.dpiY := rfl
@[simp] theorem pushKept_result (ch : CodeUnit) (s : State) : (pushKept ch s).result = s.result := rfl
@[simp] theorem pushKept_lastCode (ch : CodeUnit) (s : State) : (pushKept ch s).lastCode = s.lastCode := rfl
@[simp] theorem pushKept_errstat (ch : CodeUnit) (s : State) : (pushKept ch s).errstat = s.errstat := rfl
@[simp] theorem pushKept_cmdReg (ch : CodeUnit) (s : State) : (pushKept ch s).cmdReg = s.cmdReg := rfl
@[simp] theorem pushKept_params (ch : CodeUnit) (s : State) : (pushKept ch s).params = s.params := rfl
@[simp] theorem pushKept_draws (ch : CodeUnit) (s : State) : (pushKept ch s).draws = s.draws := rfl
@[simp] theorem pushKept_schedule (ch : CodeUnit) (s : State) : (pushKept ch s).schedule = s.schedule := rfl
@[simp] theorem pushKept_observed (ch : CodeUnit) (s : State) : (pushKept ch s).observed = s.observed := rfl

/-! ### `fbWrite` (R7) -/

@[simp] theorem fbWrite_fb (x y : Nat) (c : Rgb) (s : State) : (fbWrite x y c s).fb = Memory.write (linearAddr s.canvasW x y) c s.fb := rfl
@[simp] theorem fbWrite_recNib (x y : Nat) (c : Rgb) (s : State) : (fbWrite x y c s).recNib = s.recNib := rfl
@[simp] theorem fbWrite_recLen (x y : Nat) (c : Rgb) (s : State) : (fbWrite x y c s).recLen = s.recLen := rfl
@[simp] theorem fbWrite_recNonhex (x y : Nat) (c : Rgb) (s : State) : (fbWrite x y c s).recNonhex = s.recNonhex := rfl
@[simp] theorem fbWrite_tile (x y : Nat) (c : Rgb) (s : State) : (fbWrite x y c s).tile = s.tile := rfl
@[simp] theorem fbWrite_tileValid (x y : Nat) (c : Rgb) (s : State) : (fbWrite x y c s).tileValid = s.tileValid := rfl
@[simp] theorem fbWrite_pal (x y : Nat) (c : Rgb) (s : State) : (fbWrite x y c s).pal = s.pal := rfl
@[simp] theorem fbWrite_canvasW (x y : Nat) (c : Rgb) (s : State) : (fbWrite x y c s).canvasW = s.canvasW := rfl
@[simp] theorem fbWrite_canvasH (x y : Nat) (c : Rgb) (s : State) : (fbWrite x y c s).canvasH = s.canvasH := rfl
@[simp] theorem fbWrite_dpiX (x y : Nat) (c : Rgb) (s : State) : (fbWrite x y c s).dpiX = s.dpiX := rfl
@[simp] theorem fbWrite_dpiY (x y : Nat) (c : Rgb) (s : State) : (fbWrite x y c s).dpiY = s.dpiY := rfl
@[simp] theorem fbWrite_result (x y : Nat) (c : Rgb) (s : State) : (fbWrite x y c s).result = s.result := rfl
@[simp] theorem fbWrite_lastCode (x y : Nat) (c : Rgb) (s : State) : (fbWrite x y c s).lastCode = s.lastCode := rfl
@[simp] theorem fbWrite_errstat (x y : Nat) (c : Rgb) (s : State) : (fbWrite x y c s).errstat = s.errstat := rfl
@[simp] theorem fbWrite_cmdReg (x y : Nat) (c : Rgb) (s : State) : (fbWrite x y c s).cmdReg = s.cmdReg := rfl
@[simp] theorem fbWrite_params (x y : Nat) (c : Rgb) (s : State) : (fbWrite x y c s).params = s.params := rfl
@[simp] theorem fbWrite_draws (x y : Nat) (c : Rgb) (s : State) : (fbWrite x y c s).draws = s.draws := rfl
@[simp] theorem fbWrite_schedule (x y : Nat) (c : Rgb) (s : State) : (fbWrite x y c s).schedule = s.schedule := rfl
@[simp] theorem fbWrite_observed (x y : Nat) (c : Rgb) (s : State) : (fbWrite x y c s).observed = s.observed := rfl

/-! ### `paintTile` (R134) -/

@[simp] theorem paintTile_fb (b : Bank) (col row : Dim) (sx sy : Scale) (s : State) : (paintTile b col row sx sy s).fb = Memory.overlay (paintCells b col row sx sy s) s.fb := rfl
@[simp] theorem paintTile_recNib (b : Bank) (col row : Dim) (sx sy : Scale) (s : State) : (paintTile b col row sx sy s).recNib = s.recNib := rfl
@[simp] theorem paintTile_recLen (b : Bank) (col row : Dim) (sx sy : Scale) (s : State) : (paintTile b col row sx sy s).recLen = s.recLen := rfl
@[simp] theorem paintTile_recNonhex (b : Bank) (col row : Dim) (sx sy : Scale) (s : State) : (paintTile b col row sx sy s).recNonhex = s.recNonhex := rfl
@[simp] theorem paintTile_tile (b : Bank) (col row : Dim) (sx sy : Scale) (s : State) : (paintTile b col row sx sy s).tile = s.tile := rfl
@[simp] theorem paintTile_tileValid (b : Bank) (col row : Dim) (sx sy : Scale) (s : State) : (paintTile b col row sx sy s).tileValid = s.tileValid := rfl
@[simp] theorem paintTile_pal (b : Bank) (col row : Dim) (sx sy : Scale) (s : State) : (paintTile b col row sx sy s).pal = s.pal := rfl
@[simp] theorem paintTile_canvasW (b : Bank) (col row : Dim) (sx sy : Scale) (s : State) : (paintTile b col row sx sy s).canvasW = s.canvasW := rfl
@[simp] theorem paintTile_canvasH (b : Bank) (col row : Dim) (sx sy : Scale) (s : State) : (paintTile b col row sx sy s).canvasH = s.canvasH := rfl
@[simp] theorem paintTile_dpiX (b : Bank) (col row : Dim) (sx sy : Scale) (s : State) : (paintTile b col row sx sy s).dpiX = s.dpiX := rfl
@[simp] theorem paintTile_dpiY (b : Bank) (col row : Dim) (sx sy : Scale) (s : State) : (paintTile b col row sx sy s).dpiY = s.dpiY := rfl
@[simp] theorem paintTile_result (b : Bank) (col row : Dim) (sx sy : Scale) (s : State) : (paintTile b col row sx sy s).result = s.result := rfl
@[simp] theorem paintTile_lastCode (b : Bank) (col row : Dim) (sx sy : Scale) (s : State) : (paintTile b col row sx sy s).lastCode = s.lastCode := rfl
@[simp] theorem paintTile_errstat (b : Bank) (col row : Dim) (sx sy : Scale) (s : State) : (paintTile b col row sx sy s).errstat = s.errstat := rfl
@[simp] theorem paintTile_cmdReg (b : Bank) (col row : Dim) (sx sy : Scale) (s : State) : (paintTile b col row sx sy s).cmdReg = s.cmdReg := rfl
@[simp] theorem paintTile_params (b : Bank) (col row : Dim) (sx sy : Scale) (s : State) : (paintTile b col row sx sy s).params = s.params := rfl
@[simp] theorem paintTile_draws (b : Bank) (col row : Dim) (sx sy : Scale) (s : State) : (paintTile b col row sx sy s).draws = s.draws := rfl
@[simp] theorem paintTile_schedule (b : Bank) (col row : Dim) (sx sy : Scale) (s : State) : (paintTile b col row sx sy s).schedule = s.schedule := rfl
@[simp] theorem paintTile_observed (b : Bank) (col row : Dim) (sx sy : Scale) (s : State) : (paintTile b col row sx sy s).observed = s.observed := rfl

/-! ### `resetBlock` (R240) -/

@[simp] theorem resetBlock_recNib (s : State) : (resetBlock s).recNib = (State.resetWith s.params).recNib := rfl
@[simp] theorem resetBlock_recLen (s : State) : (resetBlock s).recLen = (State.resetWith s.params).recLen := rfl
@[simp] theorem resetBlock_recNonhex (s : State) : (resetBlock s).recNonhex = (State.resetWith s.params).recNonhex := rfl
@[simp] theorem resetBlock_tile (s : State) : (resetBlock s).tile = (State.resetWith s.params).tile := rfl
@[simp] theorem resetBlock_tileValid (s : State) : (resetBlock s).tileValid = (State.resetWith s.params).tileValid := rfl
@[simp] theorem resetBlock_pal (s : State) : (resetBlock s).pal = (State.resetWith s.params).pal := rfl
@[simp] theorem resetBlock_canvasW (s : State) : (resetBlock s).canvasW = (State.resetWith s.params).canvasW := rfl
@[simp] theorem resetBlock_canvasH (s : State) : (resetBlock s).canvasH = (State.resetWith s.params).canvasH := rfl
@[simp] theorem resetBlock_fb (s : State) : (resetBlock s).fb = (State.resetWith s.params).fb := rfl
@[simp] theorem resetBlock_dpiX (s : State) : (resetBlock s).dpiX = (State.resetWith s.params).dpiX := rfl
@[simp] theorem resetBlock_dpiY (s : State) : (resetBlock s).dpiY = (State.resetWith s.params).dpiY := rfl
@[simp] theorem resetBlock_result (s : State) : (resetBlock s).result = (State.resetWith s.params).result := rfl
@[simp] theorem resetBlock_lastCode (s : State) : (resetBlock s).lastCode = (State.resetWith s.params).lastCode := rfl
@[simp] theorem resetBlock_errstat (s : State) : (resetBlock s).errstat = (State.resetWith s.params).errstat := rfl
@[simp] theorem resetBlock_cmdReg (s : State) : (resetBlock s).cmdReg = (State.resetWith s.params).cmdReg := rfl
@[simp] theorem resetBlock_params (s : State) : (resetBlock s).params = s.params := rfl
@[simp] theorem resetBlock_draws (s : State) : (resetBlock s).draws = s.draws := rfl
@[simp] theorem resetBlock_schedule (s : State) : (resetBlock s).schedule = s.schedule := rfl
@[simp] theorem resetBlock_observed (s : State) : (resetBlock s).observed = s.observed := rfl

end Sys2Proof.Machine
end

