-- ==== Sys2Proof/Laws/Canvas.lean ====
section
/-! SUPPORT. Laws of the canvas: pixel coordinates and linear addresses (spec/20_memory.md rule R61), and
PAINT's cells (spec/41_canvas_compositor.md rules R134 to R136). -/

namespace Sys2Proof.Machine

/-! ### Coordinates and addresses -/

theorem linearAddr_lt {w h : Dim} {x y : Nat} (hx : x < w.toNat) (hy : y < h.toNat) :
    linearAddr w x y < w.toNat * h.toNat := by
  have h1 : (y + 1) * w.toNat ≤ h.toNat * w.toNat := Nat.mul_le_mul_right _ hy
  have h2 : (y + 1) * w.toNat = y * w.toNat + w.toNat := by ring
  rw [Nat.mul_comm w.toNat, linearAddr]
  omega

theorem linearAddr_mod {w : Dim} {x : Nat} (hx : x < w.toNat) (y : Nat) :
    linearAddr w x y % w.toNat = x := by
  rw [linearAddr, Nat.mul_add_mod_self_right, Nat.mod_eq_of_lt hx]

theorem linearAddr_div {w : Dim} {x : Nat} (hx : x < w.toNat) (y : Nat) :
    linearAddr w x y / w.toNat = y := by
  have hw : 0 < w.toNat := by omega
  rw [linearAddr, Nat.add_comm, Nat.add_mul_div_right _ _ hw, Nat.div_eq_of_lt hx, Nat.zero_add]

/-- Different existing pixels have different linear addresses. -/
theorem linearAddr_inj {w : Dim} {x y x' y' : Nat} (hx : x < w.toNat) (hx' : x' < w.toNat) :
    linearAddr w x y = linearAddr w x' y' ↔ x = x' ∧ y = y' := by
  constructor
  · intro h
    exact ⟨by rw [← linearAddr_mod hx y, h, linearAddr_mod hx'],
      by rw [← linearAddr_div hx y, h, linearAddr_div hx']⟩
  · rintro ⟨rfl, rfl⟩; rfl

theorem linearAddr_divMod (w : Dim) (a : Nat) : linearAddr w (a % w.toNat) (a / w.toNat) = a := by
  rw [linearAddr, Nat.mul_comm]; exact Nat.div_add_mod a w.toNat

theorem hasPixel_iff (s : State) (x y : Nat) :
    s.hasPixel x y = true ↔ x < s.canvasW.toNat ∧ y < s.canvasH.toNat := by
  rw [State.hasPixel, Bool.and_eq_true, decide_eq_true_eq, decide_eq_true_eq]

/-- The bounds check of PAINT, written out (R136). -/
theorem rectInside_iff (col row : Dim) (sx sy : Scale) (w h : Dim) :
    rectInside col row sx sy w h = true ↔
      col.toNat * 8 * sx.toNat + 8 * sx.toNat ≤ w.toNat ∧
        row.toNat * 8 * sy.toNat + 8 * sy.toNat ≤ h.toNat := by
  rw [rectInside, Bool.and_eq_true, decide_eq_true_eq, decide_eq_true_eq]; rfl

/-! ### Stores made of rising pieces -/

theorem Memory.rises_append {b m : Nat} {l₁ l₂ : Memory} (h₁ : Memory.risesFrom b l₁ = true)
    (hlt : ∀ p ∈ l₁, p.1 < m) (hbm : b ≤ m) (h₂ : Memory.risesFrom m l₂ = true) :
    Memory.risesFrom b (l₁ ++ l₂) = true := by
  induction l₁ generalizing b with
  | nil => exact Memory.risesFrom_mono hbm h₂
  | cons p l ih =>
    obtain ⟨a, c⟩ := p
    rw [List.cons_append, Memory.risesFrom_cons] at *
    exact ⟨h₁.1, ih h₁.2 (fun p hp => hlt p (by simp [hp])) (hlt (a, c) (by simp))⟩

/-- Pieces that each lie in a range of their own, the ranges rising, make a canonical store. -/
theorem Memory.rises_flatMap {α : Type} (l : List α) (f : α → Memory) (lo hi : α → Nat)
    (hf : ∀ x ∈ l, Memory.risesFrom (lo x) (f x) = true ∧ (∀ p ∈ f x, p.1 < hi x) ∧ lo x ≤ hi x)
    (hch : l.Pairwise fun x y => hi x ≤ lo y) (b : Nat) (hb : ∀ x ∈ l, b ≤ lo x) :
    Memory.risesFrom b (l.flatMap f) = true := by
  induction l generalizing b with
  | nil => rfl
  | cons x l ih =>
    rw [List.flatMap_cons]
    rw [List.pairwise_cons] at hch
    obtain ⟨h₁, h₂, h₃⟩ := hf x (by simp)
    have hbx := hb x (by simp)
    exact Memory.rises_append (Memory.risesFrom_mono hbx h₁) h₂ (hbx.trans h₃)
      (ih (fun y hy => hf y (by simp [hy])) hch.2 _ fun y hy => hch.1 y hy)

/-! ### PAINT's cells -/

theorem mem_tileWrites {tile : Vector Shade 64} {p : Palette} {col row : Dim} {sx sy : Scale}
    {q : PixelWrite} :
    q ∈ tileWrites tile p col row sx sy ↔
      ∃ r c : Fin 8, ∃ dy < sy.toNat, ∃ dx < sx.toNat,
        q = tileWrite tile p col row sx sy r c dy dx := by
  simp only [tileWrites, List.mem_flatMap, List.mem_map, List.mem_finRange, List.mem_range,
    true_and]
  constructor
  · rintro ⟨r, dy, hdy, c, dx, hdx, rfl⟩; exact ⟨r, c, dy, hdy, dx, hdx, rfl⟩
  · rintro ⟨r, c, dy, hdy, dx, hdx, rfl⟩; exact ⟨r, dy, hdy, c, dx, hdx, rfl⟩

/-- A block of the rectangle ends inside it: eight blocks of `n` from offset `g × 8 × n`. -/
theorem block_end_le (g : Nat) (k : Fin 8) (n : Nat) :
    (g * 8 + k.val) * n + n ≤ g * 8 * n + 8 * n := by
  have h : (k.val + 1) * n ≤ 8 * n := Nat.mul_le_mul_right _ (by omega)
  calc (g * 8 + k.val) * n + n = g * 8 * n + (k.val + 1) * n := by ring
    _ ≤ g * 8 * n + 8 * n := by omega

/-- The address of one of PAINT's writes, from the start of its device row. -/
theorem tileWrite_addr (w : Dim) (tile : Vector Shade 64) (p : Palette) (col row : Dim)
    (sx sy : Scale) (r c : Fin 8) (dy dx : Nat) :
    linearAddr w (tileWrite tile p col row sx sy r c dy dx).x
        (tileWrite tile p col row sx sy r c dy dx).y =
      ((row.toNat * 8 + r.val) * sy.toNat + dy) * w.toNat +
        ((col.toNat * 8 + c.val) * sx.toNat + dx) := rfl

/-- The cells of one block's device row rise. -/
theorem blockRow_rises (a n : Nat) (rgb : Rgb) :
    Memory.risesFrom a ((List.range n).map fun dx => (a + dx, rgb)) = true := by
  have key : ∀ k i, Memory.risesFrom (a + i) ((List.range' i k).map fun dx => (a + dx, rgb)) = true := by
    intro k
    induction k with
    | zero => intro i; rfl
    | succ k ih =>
      intro i
      rw [List.range'_succ, List.map_cons, Memory.risesFrom_cons]
      exact ⟨le_rfl, ih (i + 1)⟩
  rw [List.range_eq_range']
  exact key n 0

/-- PAINT's cells are in canonical form when the rectangle is inside the canvas. -/
theorem paintCells_wf {s : State} {b : Bank} {col row : Dim} {sx sy : Scale}
    (hin : rectInside col row sx sy s.canvasW s.canvasH = true) :
    Memory.wf (paintCells b col row sx sy s) = true := by
  rw [rectInside_iff] at hin
  simp only [paintCells, tileWrites, Memory.wf, List.map_flatMap, List.map_map, Function.comp_def,
    tileWrite_addr]
  have hc : ∀ c : Fin 8, (col.toNat * 8 + c.val) * sx.toNat + sx.toNat ≤ s.canvasW.toNat :=
    fun c => (block_end_le _ c _).trans hin.1
  generalize s.canvasW.toNat = W at *
  generalize sx.toNat = X at *
  generalize sy.toNat = Y at *
  generalize col.toNat = C at *
  generalize row.toNat = R at *
  -- one device row: its eight blocks rise, and all lie before the next device row
  have hrow : ∀ (y : Nat) (f : Fin 8 → Rgb),
      Memory.risesFrom (y * W) ((List.finRange 8).flatMap fun c =>
        (List.range X).map fun dx => (y * W + ((C * 8 + c.val) * X + dx), f c)) = true := by
    intro y f
    refine Memory.rises_flatMap _ _ (fun c => y * W + (C * 8 + c.val) * X)
      (fun c => y * W + (C * 8 + c.val) * X + X) (fun c _ => ⟨?_, ?_, by omega⟩) ?_ _
      (fun c _ => by omega)
    · simpa only [Nat.add_assoc] using blockRow_rises (y * W + (C * 8 + c.val) * X) X (f c)
    · intro p hp
      obtain ⟨dx, hdx, rfl⟩ := List.mem_map.mp hp
      have := List.mem_range.mp hdx
      simp only; omega
    · refine (List.pairwise_lt_finRange 8).imp fun {c c'} h => ?_
      have h₁ : (C * 8 + c.val + 1) * X ≤ (C * 8 + c'.val) * X := Nat.mul_le_mul_right _ (by omega)
      have h₂ : (C * 8 + c.val + 1) * X = (C * 8 + c.val) * X + X := by ring
      omega
  have hlt : ∀ (y : Nat) (f : Fin 8 → Rgb), ∀ p ∈ (List.finRange 8).flatMap fun c =>
      (List.range X).map fun dx => (y * W + ((C * 8 + c.val) * X + dx), f c),
      p.1 < (y + 1) * W := by
    intro y f p hp
    simp only [List.mem_flatMap, List.mem_map, List.mem_range] at hp
    obtain ⟨c, _, dx, hdx, rfl⟩ := hp
    have h₁ := hc c
    have h₂ : (y + 1) * W = y * W + W := by ring
    simp only; omega
  refine Memory.rises_flatMap _ _ (fun r => (R * 8 + r.val) * Y * W)
    (fun r => (R * 8 + r.val + 1) * Y * W) (fun r _ => ⟨?_, ?_, ?_⟩) ?_ 0 (by simp)
  · exact Memory.rises_flatMap _ _ (fun dy => ((R * 8 + r.val) * Y + dy) * W)
      (fun dy => ((R * 8 + r.val) * Y + dy + 1) * W)
      (fun dy _ => ⟨hrow _ _, hlt _ _, Nat.mul_le_mul_right _ (by omega)⟩)
      (List.pairwise_lt_range.imp fun h => Nat.mul_le_mul_right _ (by omega)) _
      (fun dy _ => Nat.mul_le_mul_right _ (by omega))
  · intro p hp
    obtain ⟨dy, hdy, hp⟩ := List.mem_flatMap.mp hp
    refine (hlt _ _ p hp).trans_le (Nat.mul_le_mul_right _ ?_)
    have h₁ := List.mem_range.mp hdy
    have h₂ : (R * 8 + r.val + 1) * Y = (R * 8 + r.val) * Y + Y := by ring
    omega
  · exact Nat.mul_le_mul_right _ (Nat.mul_le_mul_right _ (by omega))
  · exact (List.pairwise_lt_finRange 8).imp fun {r r'} h =>
      Nat.mul_le_mul_right _ (Nat.mul_le_mul_right _ (by omega))

/-- What PAINT's cells list: the writes of R134's loops at their linear addresses. -/
theorem mem_paintCells {s : State} {b : Bank} {col row : Dim} {sx sy : Scale} {q : Nat × Rgb} :
    q ∈ paintCells b col row sx sy s ↔
      ∃ r c : Fin 8, ∃ dy < sy.toNat, ∃ dx < sx.toNat,
        q = (linearAddr s.canvasW ((col.toNat * 8 + c.val) * sx.toNat + dx)
            ((row.toNat * 8 + r.val) * sy.toNat + dy),
          palEntry s.pal b (tileShade s.tile r c)) := by
  simp only [paintCells, List.mem_map, mem_tileWrites]
  constructor
  · rintro ⟨p, ⟨r, c, dy, hdy, dx, hdx, rfl⟩, rfl⟩; exact ⟨r, c, dy, hdy, dx, hdx, rfl⟩
  · rintro ⟨r, c, dy, hdy, dx, hdx, rfl⟩; exact ⟨_, ⟨r, c, dy, hdy, dx, hdx, rfl⟩, rfl⟩

/-- Every cell PAINT writes is an existing pixel when the rectangle is inside the canvas (R139). -/
theorem paintCells_lt {s : State} {b : Bank} {col row : Dim} {sx sy : Scale}
    (hin : rectInside col row sx sy s.canvasW s.canvasH = true) {q : Nat × Rgb}
    (hq : q ∈ paintCells b col row sx sy s) : q.1 < s.pixelCount := by
  rw [rectInside_iff] at hin
  obtain ⟨r, c, dy, hdy, dx, hdx, rfl⟩ := mem_paintCells.mp hq
  have hx := block_end_le col.toNat c sx.toNat
  have hy := block_end_le row.toNat r sy.toNat
  exact linearAddr_lt (by omega) (by omega)

end Sys2Proof.Machine
end

