-- ==== Sys2Proof/Laws/Encoding.lean ====
section
/-! SUPPORT. Laws of the encoder's field placement and of the opcode map's rows. -/

namespace Sys2Proof

theorem place_getLsbD {n : Nat} (lo : Nat) (v : BitVec n) (k : Nat) (hk : k < 64) :
    (place lo v).getLsbD k = (decide (lo ≤ k) && v.getLsbD (k - lo)) := by
  simp only [place, BitVec.getLsbD_shiftLeft, BitVec.getLsbD_setWidth]
  by_cases h : lo ≤ k
  · have : k - lo < 64 := by omega
    simp [h, hk, this, Nat.not_lt.mpr h]
  · simp [h, Nat.lt_of_not_le h]

/-- A field read where it was placed. -/
theorem extract_place_same {n : Nat} (lo : Nat) (v : BitVec n) (h : lo + n ≤ 64) :
    (place lo v).extractLsb' lo n = v := by
  apply BitVec.eq_of_getLsbD_eq
  intro k hk
  rw [BitVec.getLsbD_extractLsb', place_getLsbD _ _ _ (by omega)]
  simp [hk]

/-- A field read beside where it was placed is 0. -/
theorem extract_place_apart {n : Nat} (lo : Nat) (v : BitVec n) (lo' n' : Nat) (h : lo' + n' ≤ 64)
    (apart : lo + n ≤ lo' ∨ lo' + n' ≤ lo) : (place lo v).extractLsb' lo' n' = 0#n' := by
  apply BitVec.eq_of_getLsbD_eq
  intro k hk
  rw [BitVec.getLsbD_extractLsb', place_getLsbD _ _ _ (by omega)]
  rcases apart with a | a
  · simp [BitVec.getLsbD_of_ge v (lo' + k - lo) (by omega)]
  · simp [show ¬ lo ≤ lo' + k by omega]

/-- Placing back what was read at the same position keeps exactly the field's bits. -/
theorem place_extract (lo n : Nat) (w : CmdWord) :
    place lo (w.extractLsb' lo n) = w &&& place lo (BitVec.allOnes n) := by
  apply BitVec.eq_of_getLsbD_eq
  intro k hk
  rw [place_getLsbD _ _ _ hk, BitVec.getLsbD_and, place_getLsbD _ _ _ hk,
    BitVec.getLsbD_extractLsb', BitVec.getLsbD_allOnes]
  by_cases h : lo ≤ k
  · rw [show lo + (k - lo) = k by omega]; cases w.getLsbD k <;> simp
  · simp [h]

theorem and_or_and (w a b : CmdWord) : w &&& a ||| w &&& b = w &&& (a ||| b) := by
  ext k hk; simp only [BitVec.getElem_or, BitVec.getElem_and]; cases w[k] <;> simp

/-- The bits under a mask and the bits beside it make up the word. -/
theorem or_and_eq_self {w m c p f : CmdWord} (hm : w &&& m = c) (hp : p = c)
    (hf : m ||| f = BitVec.allOnes 64) : p ||| w &&& f = w := by
  rw [hp, ← hm, and_or_and, hf, BitVec.and_allOnes]

/-- A mask that covers no bit of a field removes the field. -/
theorem place_and_of_extract_eq_zero {n : Nat} (lo : Nat) (v : BitVec n) (m : CmdWord)
    (hm : m.extractLsb' lo n = 0#n) : place lo v &&& m = 0#64 := by
  apply BitVec.eq_of_getLsbD_eq
  intro k hk
  rw [BitVec.getLsbD_and, place_getLsbD _ _ _ hk]
  by_cases h : lo ≤ k ∧ k - lo < n
  · have hb : m.getLsbD k = false := by
      have := congrArg (fun b => b.getLsbD (k - lo)) hm
      simpa [BitVec.getLsbD_extractLsb', h.2, show lo + (k - lo) = k by omega] using this
    simp [hb]
  · by_cases h1 : lo ≤ k
    · simp [BitVec.getLsbD_of_ge v (k - lo) (by omega)]
    · simp [h1]

/-- A word made of an opcode and fields is accepted by a row whose mask leaves the fields free. -/
theorem accepts_of_and {r : OpcodeRow} {w : CmdWord} (h : w &&& r.mask = r.matchBits) :
    r.accepts w = true := by
  simp [OpcodeRow.accepts, h]

/-- Adding a field the mask does not cover changes nothing under the mask. -/
theorem or_place_and {n : Nat} (w m : CmdWord) (lo : Nat) (v : BitVec n)
    (hm : m.extractLsb' lo n = 0#n) : (w ||| place lo v) &&& m = w &&& m := by
  have h := place_and_of_extract_eq_zero lo v m hm
  apply BitVec.eq_of_getLsbD_eq
  intro k hk
  have hk' := congrArg (fun b => b.getLsbD k) h
  simp only [BitVec.getLsbD_and, BitVec.getLsbD_zero, BitVec.getLsbD_or] at hk' ⊢
  revert hk'
  cases w.getLsbD k <;> cases m.getLsbD k <;> cases (place lo v).getLsbD k <;> simp

/-- A row that accepts a word has the word's opcode: every mask covers the opcode byte (R89). -/
theorem accepts_opcode {r : OpcodeRow} (hr : r ∈ opcodeTable) {w : CmdWord}
    (h : r.accepts w = true) : opcodeOf w = opcodeOf r.matchBits := by
  have hm : ∀ r ∈ opcodeTable, opcodeOf r.mask = 0xFF#8 := by decide
  have he : w &&& r.mask = r.matchBits := by simpa [OpcodeRow.accepts] using h
  have hx := hm r hr
  have ho := congrArg opcodeOf he
  rw [← ho]
  simp only [opcodeOf, BitVec.extractLsb'_and] at hx ⊢
  rw [hx, show (0xFF#8) = BitVec.allOnes 8 from rfl, BitVec.and_allOnes]

/-- The rows' opcode bytes differ (R89). -/
theorem row_of_opcode : ∀ r ∈ opcodeTable, ∀ r' ∈ opcodeTable,
    opcodeOf r.matchBits = opcodeOf r'.matchBits → r = r' := by decide

/-- `find?` answers the accepting row, whichever place it has in the map. -/
theorem find_accepting {r : OpcodeRow} (hr : r ∈ opcodeTable) {w : CmdWord}
    (h : r.accepts w = true) : opcodeTable.find? (fun r => r.accepts w) = some r := by
  cases hf : opcodeTable.find? (fun r => r.accepts w) with
  | none => exact absurd h (by simpa using List.find?_eq_none.mp hf r hr)
  | some r' =>
    have hr' := List.mem_of_find?_eq_some hf
    have ha' : r'.accepts w = true := by simpa using List.find?_some hf
    rw [row_of_opcode r' hr' r hr ((accepts_opcode hr' ha').symm.trans (accepts_opcode hr h))]

/-- What the decoder answers for a word that a row accepts. -/
theorem decode_of_accepts {r : OpcodeRow} (hr : r ∈ opcodeTable) {w : CmdWord}
    (h : r.accepts w = true) : decode w = .ok (readFields r.mnemonic w) := by
  simp [decode, find_accepting hr h]

/-- What the decoder accepts comes from a row. -/
theorem decode_ok_cases {w : CmdWord} {i : Instr} (h : decode w = .ok i) :
    ∃ r ∈ opcodeTable, r.accepts w = true ∧ i = readFields r.mnemonic w := by
  simp only [decode] at h
  split at h
  · next r hf =>
    refine ⟨r, List.mem_of_find?_eq_some hf, by simpa using List.find?_some hf, ?_⟩
    simpa using h.symm
  · cases h

/-- Two fields side by side are each placed at its own position. -/
theorem place_append {m n : Nat} (lo : Nat) (a : BitVec m) (b : BitVec n) :
    place lo (a ++ b) = place (lo + n) a ||| place lo b := by
  apply BitVec.eq_of_getLsbD_eq
  intro k hk
  rw [BitVec.getLsbD_or, place_getLsbD _ _ _ hk, place_getLsbD _ _ _ hk, place_getLsbD _ _ _ hk,
    BitVec.getLsbD_append]
  by_cases h : lo ≤ k
  · by_cases h' : k - lo < n
    · simp [h, h', show ¬ lo + n ≤ k by omega]
    · simp [h, h', show lo + n ≤ k by omega, BitVec.getLsbD_of_ge b (k - lo) (by omega),
        show k - lo - n = k - (lo + n) by omega]
  · simp [h, show ¬ lo + n ≤ k by omega]

theorem place_zeros (lo n : Nat) : place lo (0#n) = 0#64 := by simp [place]

/-- A word written as two parts side by side. -/
theorem eq_append_of_place {m n : Nat} {w : CmdWord} (a : BitVec m) (b : BitVec n) (h : m + n = 64)
    (hw : w = place n a ||| place 0 b) : w = (a ++ b).cast h := by
  have := place_append 0 a b
  rw [Nat.zero_add] at this
  rw [hw, ← this]
  apply BitVec.eq_of_toNat_eq
  have hlt : (a ++ b).toNat < 2 ^ 64 := h ▸ (a ++ b).isLt
  simp only [place, BitVec.shiftLeft_zero, BitVec.toNat_setWidth, BitVec.toNat_cast]
  exact Nat.mod_eq_of_lt hlt

end Sys2Proof
end

