-- ==== Sys2Proof/Laws/Operations.lean ====
section
/-! SUPPORT. What each shared operation can do, said once: the host's moves, the sequencer's step, the step
of the model, and `exec` as a total effect. -/

namespace Sys2Proof.Machine

/-! ### `issue` (R39) -/

theorem issue_idle {s : State} (h : s.cmdReg = none) (w : CmdWord) :
    issue w s = { s with cmdReg := some w } := by
  simp [issue, h]

theorem issue_busy {s : State} {v : CmdWord} (h : s.cmdReg = some v) (w : CmdWord) :
    issue w s = { s with errstat := s.errstat ||| overrunBit } := by
  simp [issue, h]

/-- Everything `issue` can do. -/
theorem issue_cases (w : CmdWord) (s : State) :
    (s.cmdReg = none ∧ issue w s = { s with cmdReg := some w }) ∨
      (∃ v, s.cmdReg = some v ∧ issue w s = { s with errstat := s.errstat ||| overrunBit }) := by
  rcases h : s.cmdReg with _ | v
  · exact .inl ⟨rfl, issue_idle h w⟩
  · exact .inr ⟨v, rfl, by rw [issue_busy h w, h]⟩

/-! ### `readReg` (R40, R45, R46) -/

theorem hostReg_isSome_iff (n : Nat) (s : State) : (hostReg n s).isSome = true ↔ n < 7 := by
  rcases n with _ | _ | _ | _ | _ | _ | _ | n <;> simp [hostReg]

/-- Everything `readReg` can do when it answers a next state. -/
theorem readReg_next {n : Nat} {s t : State} (h : readReg n s = .next t) :
    ∃ v, hostReg n s = some v ∧ t = { s with observed := v :: s.observed } := by
  simp only [readReg] at h
  split at h
  · next v hv => exact ⟨v, hv, by injection h with h; exact h.symm⟩
  · cases h

/-! ### Commands -/

/-- The next state a command leads to; `exec_eq_effect` says that `exec` answers it. -/
def effect (i : Instr) (s : State) : State :=
  match exec i s with
  | .next t => t
  | .fault _ => s
  | .refused _ => s

theorem exec_eq_effect (i : Instr) (s : State) : exec i s = .next (effect i s) := by
  cases i
  case recEnd => simp only [effect, exec, execRecEnd]; cases recordCode s <;> rfl
  all_goals rfl

theorem exec_next_iff {i : Instr} {s t : State} : exec i s = .next t ↔ t = effect i s := by
  rw [exec_eq_effect]
  constructor
  · intro h; injection h with h; exact h.symm
  · rintro rfl; rfl

theorem effect_nop (s : State) : effect .nop s = finish .ok s := rfl

theorem effect_recBegin (s : State) : effect .recBegin s = finish .ok (emptyAssembler s) := rfl

theorem effect_recChar_strip {ch : CodeUnit} (h : isStrip ch = true) (s : State) :
    effect (.recChar ch) s = finish .ok s := by
  simp [effect, exec, execRecChar, h]

theorem effect_recChar_kept {ch : CodeUnit} (h : isStrip ch = false) (s : State) :
    effect (.recChar ch) s = finish .ok (pushKept ch s) := by
  simp [effect, exec, execRecChar, h]

theorem recordCode_cases (s : State) :
    (s.recLen ≠ 32 ∧ recordCode s = .recBadlen) ∨
      (s.recLen = 32 ∧ s.recNonhex = true ∧ recordCode s = .recNonhex) ∨
      (s.recLen = 32 ∧ s.recNonhex = false ∧ recordCode s = .ok) := by
  unfold recordCode
  by_cases h : s.recLen = 32
  · cases hn : s.recNonhex <;> simp [h]
  · exact .inl ⟨h, if_pos h⟩

theorem effect_recEnd_valid {s : State} (h : recordCode s = .ok) :
    effect .recEnd s =
      finish .ok (emptyAssembler { s with tile := unpackTile s.recNib, tileValid := true }) := by
  simp [effect, exec, execRecEnd, h]

theorem effect_recEnd_invalid {s : State} (h : recordCode s ≠ .ok) :
    effect .recEnd s = finish (recordCode s) (emptyAssembler { s with tileValid := false }) := by
  simp only [effect, exec, execRecEnd]

theorem effect_rdshade_valid {s : State} (h : s.tileValid = true) (idx : BitVec 6) :
    effect (.rdshade idx) s = finish .ok { s with result := (s.tile.get idx.toFin).setWidth 32 } := by
  simp [effect, exec, execRdshade, h]

theorem effect_rdshade_invalid {s : State} (h : s.tileValid = false) (idx : BitVec 6) :
    effect (.rdshade idx) s = raise .notile s := by
  simp [effect, exec, execRdshade, h]

/-- Everything ALLOC can do (R131). -/
theorem effect_alloc_cases (w h : Dim) (s : State) :
    (s.params.fbMaxPixels < w.toNat * h.toNat ∧ effect (.alloc w h) s = raise .baddim s) ∨
      (w.toNat * h.toNat ≤ s.params.fbMaxPixels ∧ w = s.canvasW ∧ h = s.canvasH ∧
        effect (.alloc w h) s = finish .ok s) ∨
      (w.toNat * h.toNat ≤ s.params.fbMaxPixels ∧ ¬(w = s.canvasW ∧ h = s.canvasH) ∧
        effect (.alloc w h) s =
          finish .ok { s with canvasW := w, canvasH := h, fb := [] }) := by
  simp only [effect, exec, execAlloc]
  by_cases hc : w.toNat * h.toNat ≤ s.params.fbMaxPixels
  · by_cases hd : w = s.canvasW ∧ h = s.canvasH
    · exact .inr (.inl ⟨hc, hd.1, hd.2, by rw [if_pos hc, if_pos hd]⟩)
    · exact .inr (.inr ⟨hc, hd, by rw [if_pos hc, if_neg hd]⟩)
  · exact .inl ⟨by omega, by rw [if_neg hc]⟩

theorem effect_fill (c : Rgb) (s : State) :
    effect (.fill c) s = finish .ok { s with fb := Memory.filled s.pixelCount c } := rfl

/-- Everything PAINT can do (R134, R136). -/
theorem effect_paint_cases (b : Bank) (col row : Dim) (sx sy : Scale) (s : State) :
    ((sx = 0 ∨ sy = 0) ∧ effect (.paint b col row sx sy) s = raise .badarg s) ∨
      (sx ≠ 0 ∧ sy ≠ 0 ∧ s.tileValid = false ∧
        effect (.paint b col row sx sy) s = raise .notile s) ∨
      (sx ≠ 0 ∧ sy ≠ 0 ∧ s.tileValid = true ∧
        rectInside col row sx sy s.canvasW s.canvasH = false ∧
        effect (.paint b col row sx sy) s = raise .oob s) ∨
      (sx ≠ 0 ∧ sy ≠ 0 ∧ s.tileValid = true ∧
        rectInside col row sx sy s.canvasW s.canvasH = true ∧
        effect (.paint b col row sx sy) s = finish .ok (paintTile b col row sx sy s)) := by
  simp only [effect, exec, execPaint]
  by_cases hz : sx = 0 ∨ sy = 0
  · exact .inl ⟨hz, by rw [if_pos hz]⟩
  · rw [if_neg hz]
    simp only [not_or] at hz
    cases hv : s.tileValid
    · exact .inr (.inl ⟨hz.1, hz.2, rfl, by simp⟩)
    · cases hr : rectInside col row sx sy s.canvasW s.canvasH
      · exact .inr (.inr (.inl ⟨hz.1, hz.2, rfl, rfl, by simp⟩))
      · exact .inr (.inr (.inr ⟨hz.1, hz.2, rfl, rfl, by simp⟩))

theorem effect_replace (old new : Rgb) (s : State) :
    effect (.replace old new) s = finish .ok { s with fb := Memory.replace old new s.fb } := rfl

theorem effect_materialize (dpiX dpiY : Dim) (s : State) :
    effect (.materialize dpiX dpiY) s = finish .ok { s with dpiX := dpiX, dpiY := dpiY } := rfl

/-- Everything RDPIX can do (R151). -/
theorem effect_rdpix_cases (x y : Dim) (s : State) :
    (s.hasPixel x.toNat y.toNat = false ∧ effect (.rdpix x y) s = raise .oob s) ∨
      (s.hasPixel x.toNat y.toNat = true ∧
        effect (.rdpix x y) s = finish .ok (latchPixel (fbRead s x.toNat y.toNat) s)) := by
  simp only [effect, exec, execRdpix]
  cases h : s.hasPixel x.toNat y.toNat
  · exact .inl ⟨rfl, by simp⟩
  · exact .inr ⟨rfl, by simp⟩

theorem effect_setpal (b : Bank) (i : Shade) (c : Rgb) (s : State) :
    effect (.setpal b i c) s = finish .ok { s with pal := setPalEntry s.pal b i c } := rfl

theorem effect_rdpal (b : Bank) (i : Shade) (s : State) :
    effect (.rdpal b i) s = finish .ok { s with result := (palEntry s.pal b i).setWidth 32 } := rfl

theorem effect_clrerr (m : BitVec 6) (s : State) :
    effect (.clrerr m) s = finish .ok { s with errstat := s.errstat &&& ~~~m } := rfl

/-! ### What every command leaves alone -/

/-- No command writes the command register, the parameters, the schedule or the host's reads. -/
theorem effect_keeps_agents (i : Instr) (s : State) :
    (effect i s).cmdReg = s.cmdReg ∧ (effect i s).params = s.params ∧
      (effect i s).schedule = s.schedule ∧ (effect i s).observed = s.observed := by
  cases i with
  | nop => exact ⟨rfl, rfl, rfl, rfl⟩
  | recBegin => exact ⟨rfl, rfl, rfl, rfl⟩
  | recChar ch =>
    cases h : isStrip ch
    · rw [effect_recChar_kept h]; exact ⟨rfl, rfl, rfl, rfl⟩
    · rw [effect_recChar_strip h]; exact ⟨rfl, rfl, rfl, rfl⟩
  | recEnd =>
    by_cases h : recordCode s = .ok
    · rw [effect_recEnd_valid h]; exact ⟨rfl, rfl, rfl, rfl⟩
    · rw [effect_recEnd_invalid h]; exact ⟨rfl, rfl, rfl, rfl⟩
  | rdshade idx =>
    cases h : s.tileValid
    · rw [effect_rdshade_invalid h]; exact ⟨rfl, rfl, rfl, rfl⟩
    · rw [effect_rdshade_valid h]; exact ⟨rfl, rfl, rfl, rfl⟩
  | alloc w h =>
    rcases effect_alloc_cases w h s with ⟨_, e⟩ | ⟨_, _, _, e⟩ | ⟨_, _, e⟩ <;> rw [e] <;>
      exact ⟨rfl, rfl, rfl, rfl⟩
  | fill c => exact ⟨rfl, rfl, rfl, rfl⟩
  | paint b col row sx sy =>
    rcases effect_paint_cases b col row sx sy s with
      ⟨_, e⟩ | ⟨_, _, _, e⟩ | ⟨_, _, _, _, e⟩ | ⟨_, _, _, _, e⟩ <;> rw [e] <;>
      exact ⟨rfl, rfl, rfl, rfl⟩
  | replace old new => exact ⟨rfl, rfl, rfl, rfl⟩
  | materialize x y => exact ⟨rfl, rfl, rfl, rfl⟩
  | rdpix x y =>
    rcases effect_rdpix_cases x y s with ⟨_, e⟩ | ⟨_, e⟩
    · rw [e]; exact ⟨rfl, rfl, rfl, rfl⟩
    · rw [e]; cases fbRead s x.toNat y.toNat <;> exact ⟨rfl, rfl, rfl, rfl⟩
  | setpal b i c => exact ⟨rfl, rfl, rfl, rfl⟩
  | rdpal b i => exact ⟨rfl, rfl, rfl, rfl⟩
  | clrerr m => exact ⟨rfl, rfl, rfl, rfl⟩

/-- `s` with the agents' parts of the state replaced. -/
def withAgents (c : Option CmdWord) (l : List Event) (o : List HostWord) (s : State) : State :=
  { s with cmdReg := c, schedule := l, observed := o }

/-- No command reads the command register, the schedule or the host's reads. -/
theorem effect_withAgents (c : Option CmdWord) (l : List Event) (o : List HostWord) (i : Instr)
    (s : State) : effect i (withAgents c l o s) = withAgents c l o (effect i s) := by
  cases i with
  | nop => rfl
  | recBegin => rfl
  | recChar ch => simp only [effect, exec, execRecChar]; cases isStrip ch <;> rfl
  | recEnd =>
    have hc : recordCode (withAgents c l o s) = recordCode s := rfl
    by_cases h : recordCode s = .ok
    · rw [effect_recEnd_valid h, effect_recEnd_valid (hc.trans h)]; rfl
    · rw [effect_recEnd_invalid h, effect_recEnd_invalid (hc ▸ h)]; rfl
  | rdshade idx =>
    cases h : s.tileValid
    · rw [effect_rdshade_invalid h, effect_rdshade_invalid (s := withAgents c l o s) h]; rfl
    · rw [effect_rdshade_valid h, effect_rdshade_valid (s := withAgents c l o s) h]; rfl
  | alloc w h =>
    simp only [effect, exec, execAlloc, apply_ite (withAgents c l o)]; rfl
  | fill c => rfl
  | paint b col row sx sy =>
    simp only [effect, exec, execPaint, apply_ite (withAgents c l o)]; rfl
  | replace old new => rfl
  | materialize x y => rfl
  | rdpix x y =>
    have hp : (withAgents c l o s).hasPixel x.toNat y.toNat = s.hasPixel x.toNat y.toNat := rfl
    have hr : fbRead (withAgents c l o s) x.toNat y.toNat = fbRead s x.toNat y.toNat := rfl
    simp only [effect, exec, execRdpix, hp, hr]
    cases s.hasPixel x.toNat y.toNat
    · rfl
    · cases fbRead s x.toNat y.toNat <;> rfl
  | setpal b i c => rfl
  | rdpal b i => rfl
  | clrerr m => rfl

/-- Every command ends with one of the codes of rule R211. -/
theorem effect_code (i : Instr) (s : State) : ∃ c : ResultCode, (effect i s).lastCode = c.bits := by
  cases i with
  | nop => exact ⟨.ok, rfl⟩
  | recBegin => exact ⟨.ok, rfl⟩
  | recChar ch => exact ⟨.ok, rfl⟩
  | recEnd =>
    by_cases h : recordCode s = .ok
    · exact ⟨.ok, by rw [effect_recEnd_valid h]; rfl⟩
    · exact ⟨recordCode s, by rw [effect_recEnd_invalid h]; rfl⟩
  | rdshade idx =>
    cases h : s.tileValid
    · exact ⟨.notile, by rw [effect_rdshade_invalid h]; rfl⟩
    · exact ⟨.ok, by rw [effect_rdshade_valid h]; rfl⟩
  | alloc w h =>
    rcases effect_alloc_cases w h s with ⟨_, e⟩ | ⟨_, _, _, e⟩ | ⟨_, _, e⟩
    · exact ⟨.baddim, by rw [e]; rfl⟩
    · exact ⟨.ok, by rw [e]; rfl⟩
    · exact ⟨.ok, by rw [e]; rfl⟩
  | fill c => exact ⟨.ok, rfl⟩
  | paint b col row sx sy =>
    rcases effect_paint_cases b col row sx sy s with
      ⟨_, e⟩ | ⟨_, _, _, e⟩ | ⟨_, _, _, _, e⟩ | ⟨_, _, _, _, e⟩
    · exact ⟨.badarg, by rw [e]; rfl⟩
    · exact ⟨.notile, by rw [e]; rfl⟩
    · exact ⟨.oob, by rw [e]; rfl⟩
    · exact ⟨.ok, by rw [e]; rfl⟩
  | replace old new => exact ⟨.ok, rfl⟩
  | materialize x y => exact ⟨.ok, rfl⟩
  | rdpix x y =>
    rcases effect_rdpix_cases x y s with ⟨_, e⟩ | ⟨_, e⟩
    · exact ⟨.oob, by rw [e]; rfl⟩
    · exact ⟨.ok, by rw [e]; rfl⟩
  | setpal b i c => exact ⟨.ok, rfl⟩
  | rdpal b i => exact ⟨.ok, rfl⟩
  | clrerr m => exact ⟨.ok, rfl⟩

theorem code_le_seven (c : ResultCode) : c.bits.toNat ≤ 7 := by cases c <;> decide

/-! ### The sequencer and the step -/

/-- What a word does to the state (R90). -/
def wordEffect (w : CmdWord) (s : State) : State :=
  match decode w with
  | .ok i => effect i s
  | .error _ => raise .illegal s

theorem executeWord_eq (w : CmdWord) (s : State) : executeWord w s = .next (wordEffect w s) := by
  unfold executeWord wordEffect
  cases decode w with
  | ok i => exact exec_eq_effect i s
  | error r => rfl

theorem wordEffect_of_ok {w : CmdWord} {i : Instr} (h : decode w = .ok i) (s : State) :
    wordEffect w s = effect i s := by
  simp [wordEffect, h]

theorem wordEffect_of_error {w : CmdWord} {r : Reject} (h : decode w = .error r) (s : State) :
    wordEffect w s = raise .illegal s := by
  simp [wordEffect, h]

/-- The sequencer's turn with a command pending (R41). -/
theorem sequencerTurn_busy {s : State} {w : CmdWord} (h : s.cmdReg = some w) :
    sequencerTurn s = .next { wordEffect w s with cmdReg := none } := by
  simp [sequencerTurn, sequencerStep, h, executeWord_eq, clearCommand]

/-- The sequencer's turn with none pending (R229). -/
theorem sequencerTurn_idle {s : State} (h : s.cmdReg = none) : sequencerTurn s = .next s := by
  simp [sequencerTurn, sequencerStep, h]

theorem step_unscheduled {s : State} (h : s.schedule = []) : step s = sequencerTurn s := by
  simp [step, machineStep, h]

theorem step_scheduled {s : State} {e : Event} {rest : List Event} (h : s.schedule = e :: rest) :
    step s = move e { s with schedule := rest } := by
  simp [step, machineStep, h]

/-- Everything a step can do when it answers a next state: the base state is `s`, or `s` without the
scheduled move that is being made. -/
theorem step_cases {s t : State} (h : step s = .next t) :
    ∃ s₀ : State, (∃ l, s₀ = { s with schedule := l }) ∧
      ((∃ w, s₀.cmdReg = some w ∧ t = { wordEffect w s₀ with cmdReg := none }) ∨
        (s₀.cmdReg = none ∧ t = s₀) ∨
        (∃ w, s.schedule = .issue w :: s₀.schedule ∧ t = issue w s₀) ∨
        (∃ n v, s.schedule = .readReg n :: s₀.schedule ∧ hostReg n s₀ = some v ∧
          t = { s₀ with observed := v :: s₀.observed }) ∨
        (s.schedule = .reset :: s₀.schedule ∧ t = resetBlock s₀)) := by
  have turn : ∀ s₀ : State, sequencerTurn s₀ = .next t →
      (∃ w, s₀.cmdReg = some w ∧ t = { wordEffect w s₀ with cmdReg := none }) ∨
        (s₀.cmdReg = none ∧ t = s₀) := by
    intro s₀ h₀
    cases hc : s₀.cmdReg with
    | none =>
      rw [sequencerTurn_idle hc] at h₀; injection h₀ with h₀; exact .inr ⟨rfl, h₀.symm⟩
    | some w =>
      rw [sequencerTurn_busy hc] at h₀; injection h₀ with h₀; exact .inl ⟨w, rfl, h₀.symm⟩
  cases hs : s.schedule with
  | nil =>
    rw [step_unscheduled hs] at h
    refine ⟨s, ⟨s.schedule, rfl⟩, ?_⟩
    rcases turn s h with h | h
    · exact .inl h
    · exact .inr (.inl h)
  | cons e rest =>
    rw [step_scheduled hs] at h
    refine ⟨{ s with schedule := rest }, ⟨rest, rfl⟩, ?_⟩
    cases e with
    | issue w => injection h with h; exact .inr (.inr (.inl ⟨w, rfl, h.symm⟩))
    | readReg n =>
      obtain ⟨v, hv, ht⟩ := readReg_next h
      exact .inr (.inr (.inr (.inl ⟨n, v, rfl, hv, ht⟩)))
    | sequencer =>
      rcases turn _ h with h | h
      · exact .inl h
      · exact .inr (.inl h)
    | reset => injection h with h; exact .inr (.inr (.inr (.inr ⟨rfl, h.symm⟩)))

/-! ### The host's `exec` (R190) -/

theorem settle_busy {s : State} {w : CmdWord} (h : s.cmdReg = some w) :
    settle s = { wordEffect w s with cmdReg := none } := by
  rw [settle, sequencerTurn_busy h]

/-- The host reads `LAST_CODE` itself in `STATUS[7:4]` (R42). -/
theorem readLastCode_eq (s : State) : readLastCode s = s.lastCode := by
  unfold readLastCode statusReg
  apply BitVec.eq_of_getElem_eq
  intro i hi
  simp only [BitVec.getElem_extractLsb', BitVec.getLsbD_append]
  have : i = 0 ∨ i = 1 ∨ i = 2 ∨ i = 3 := by omega
  rcases this with rfl | rfl | rfl | rfl <;> simp

/-- On an idle block the host's `exec` is the command's effect, for a command whose word decodes to
it. -/
theorem hostExec_eq_effect {i : Instr} {s : State} (hd : decode (encode i) = .ok i)
    (h : s.cmdReg = none) : hostExec i s = effect i s := by
  obtain ⟨hc, -, hs, ho⟩ := effect_keeps_agents i s
  have hw := effect_withAgents (some (encode i)) s.schedule s.observed i s
  unfold hostExec
  rw [issue_idle h, settle_busy rfl, wordEffect_of_ok hd,
    show ({ s with cmdReg := some (encode i) } : State) =
      withAgents (some (encode i)) s.schedule s.observed s from rfl, hw]
  simp only [withAgents, ← hs, ← ho]
  rw [← h, ← hc]

end Sys2Proof.Machine
end

