-- ==== Sys2Proof/Laws/PerInstr.lean ====
section
/-! SUPPORT. Families of statements about every command as syntax, one lemma per constructor.

`RowMatch`: the encoder's word of a command is accepted by the command's row of the opcode map, and
by its reserved-bit mask in particular (spec/30_encoding.md rules R85 and R86). -/

namespace Sys2Proof.Laws.RowMatch

/-- The row of the opcode map with the command's mnemonic accepts the command's word. -/
def Statement (i : Instr) : Prop :=
  ∃ r ∈ opcodeTable, r.mnemonic = i.mnemonic ∧ r.accepts (encode i) = true

theorem nop : Statement .nop := ⟨opcodeTable[0], by decide, by decide, by decide⟩

theorem recBegin : Statement .recBegin := ⟨opcodeTable[1], by decide, by decide, by decide⟩

theorem recEnd : Statement .recEnd := ⟨opcodeTable[3], by decide, by decide, by decide⟩

theorem recChar (ch : CodeUnit) : Statement (.recChar ch) :=
  ⟨opcodeTable[2], by decide, rfl, accepts_of_and <| by
    rw [encode]
    repeat rw [or_place_and _ _ _ _ (by decide)]
    decide⟩

theorem rdshade (idx : BitVec 6) : Statement (.rdshade idx) :=
  ⟨opcodeTable[4], by decide, rfl, accepts_of_and <| by
    rw [encode]
    repeat rw [or_place_and _ _ _ _ (by decide)]
    decide⟩

theorem alloc (w h : Dim) : Statement (.alloc w h) :=
  ⟨opcodeTable[5], by decide, rfl, accepts_of_and <| by
    rw [encode]
    repeat rw [or_place_and _ _ _ _ (by decide)]
    decide⟩

theorem fill (rgb : Rgb) : Statement (.fill rgb) :=
  ⟨opcodeTable[6], by decide, rfl, accepts_of_and <| by
    rw [encode]
    repeat rw [or_place_and _ _ _ _ (by decide)]
    decide⟩

theorem paint (bank : Bank) (col row : Dim) (sx sy : Scale) : Statement (.paint bank col row sx sy) :=
  ⟨opcodeTable[7], by decide, rfl, accepts_of_and <| by
    rw [encode]
    repeat rw [or_place_and _ _ _ _ (by decide)]
    decide⟩

theorem replace (old new : Rgb) : Statement (.replace old new) :=
  ⟨opcodeTable[8], by decide, rfl, accepts_of_and <| by
    rw [encode]
    repeat rw [or_place_and _ _ _ _ (by decide)]
    decide⟩

theorem materialize (dpiX dpiY : Dim) : Statement (.materialize dpiX dpiY) :=
  ⟨opcodeTable[9], by decide, rfl, accepts_of_and <| by
    rw [encode]
    repeat rw [or_place_and _ _ _ _ (by decide)]
    decide⟩

theorem rdpix (x y : Dim) : Statement (.rdpix x y) :=
  ⟨opcodeTable[10], by decide, rfl, accepts_of_and <| by
    rw [encode]
    repeat rw [or_place_and _ _ _ _ (by decide)]
    decide⟩

theorem setpal (bank : Bank) (idx : Shade) (rgb : Rgb) : Statement (.setpal bank idx rgb) :=
  ⟨opcodeTable[11], by decide, rfl, accepts_of_and <| by
    rw [encode]
    repeat rw [or_place_and _ _ _ _ (by decide)]
    decide⟩

theorem rdpal (bank : Bank) (idx : Shade) : Statement (.rdpal bank idx) :=
  ⟨opcodeTable[12], by decide, rfl, accepts_of_and <| by
    rw [encode]
    repeat rw [or_place_and _ _ _ _ (by decide)]
    decide⟩

theorem clrerr (mask : BitVec 6) : Statement (.clrerr mask) :=
  ⟨opcodeTable[13], by decide, rfl, accepts_of_and <| by
    rw [encode]
    repeat rw [or_place_and _ _ _ _ (by decide)]
    decide⟩

end Sys2Proof.Laws.RowMatch
end

