-- ==== Sys2Proof/Laws/Pipeline.lean ====
section
/-! SUPPORT. What the host's toggle and read-out can do (spec/43_host_pipeline.md rules R195, R199, R200), the
read-out under the premise that RDPIX words decode to RDPIX. -/

namespace Sys2Proof.Machine

theorem hostExecAll_append (is js : List Instr) (s : State) :
    hostExecAll (is ++ js) s = hostExecAll js (hostExecAll is s) := List.foldl_append ..

/-- Toggling twice gives the host's configuration back. -/
theorem HostConfig.toggled_toggled (c : HostConfig) : c.toggled.toggled = c := by
  simp [HostConfig.toggled]

theorem swapCheck_iff (c : HostConfig) (back : Bool) :
    swapCheck c back = true ↔
      swapOk c.shown c.toggled.shown ∧ (back = true → swapOk c.toggled.shown c.shown) := by
  cases back <;> simp only [swapCheck, Bool.and_eq_true, Bool.or_eq_true, decide_eq_true_eq] <;> simp

/-- Everything a palette toggle can do. -/
theorem paletteToggle_cases (c : HostConfig) (back : Bool) (s : State) :
    (hostParamsValid c.params = false ∧
      paletteToggle c back s = .stopped .parametersOutsideSpec s) ∨
    (hostParamsValid c.params = true ∧ swapCheck c back = false ∧
      paletteToggle c back s = .stopped .swapConditionFails s) ∨
    (hostParamsValid c.params = true ∧ swapCheck c back = true ∧
      paletteToggle c back s =
        .toggled c.toggled (hostExecAll (palswapCommands c.shown c.toggled.shown) s)) := by
  unfold paletteToggle
  cases hostParamsValid c.params <;> cases swapCheck c back <;> simp

/-- With parameters outside the specification no procedure of the host issues anything
(notes/assumptions/16.md). -/
theorem host_stops_of_invalid {c : HostConfig} (hv : hostParamsValid c.params = false)
    (blob : List CodeUnit) (back : Bool) (s : State) :
    capture c blob s = .stopped .parametersOutsideSpec s ∧
      captureSinglePass c blob s = .stopped .parametersOutsideSpec s ∧
      bootAndCapture c blob s = .stopped .parametersOutsideSpec s ∧
      paletteToggle c back s = .stopped .parametersOutsideSpec s := by
  simp [capture, captureSinglePass, bootAndCapture, paletteToggle, hv]

theorem hostSession_of_invalid {c : HostConfig} (hv : hostParamsValid c.params = false)
    (jobs : List HostJob) (s : State) :
    (hostSession c jobs s).state = s ∧ (hostSession c jobs s).images = [] := by
  cases jobs with
  | nil => exact ⟨rfl, rfl⟩
  | cons j js =>
    have h blob back := host_stops_of_invalid hv blob back s
    cases j with
    | captureEvent blob => simp [hostSession, (h blob false).1]
    | toggle => simp [hostSession, (h [] (togglesBack js)).2.2.2]
    | disconnect => exact ⟨rfl, rfl⟩

/-- `s` with the parts that a successful RDPIX may write replaced. -/
def withReadResult (r : HostWord) (code : BitVec 4) (d : Nat) (s : State) : State :=
  { s with result := r, lastCode := code, draws := d }

theorem withReadResult_self (s : State) :
    withReadResult s.result s.lastCode s.draws s = s := rfl

theorem withReadResult_twice (r r' : HostWord) (code code' : BitVec 4) (d d' : Nat) (s : State) :
    withReadResult r code d (withReadResult r' code' d' s) = withReadResult r code d s := rfl

/-- What the host may receive for a pixel (R151). -/
def Pixel.readsAs (p : Pixel) (w : HostWord) : Prop :=
  match p with
  | .defined c => w = c.setWidth 32
  | .undef => ∃ v : Rgb, w = v.setWidth 32

theorem latchPixel_cases (p : Pixel) (s : State) :
    ∃ r d, latchPixel p s = withReadResult r s.lastCode d s ∧ p.readsAs r := by
  cases p with
  | defined c => exact ⟨c.setWidth 32, s.draws, rfl, rfl⟩
  | undef => exact ⟨(Config.draw s.draws).setWidth 32, s.draws + 1, rfl, _, rfl⟩

/-- One pixel read by the host from an idle block. -/
theorem hostReadPixel_cases (hd : ∀ i, decode (encode i) = .ok i) {s : State} {x y : Nat}
    (hc : s.cmdReg = none) (hp : s.hasPixel x y = true) :
    ∃ r d, hostReadPixel x y s = (r, withReadResult r 0 d s) ∧ (fbRead s x y).readsAs r := by
  obtain ⟨hx, hy⟩ := (hasPixel_iff s x y).mp hp
  have ex : (BitVec.ofNat 16 x).toNat = x := by
    rw [BitVec.toNat_ofNat]; exact Nat.mod_eq_of_lt (lt_trans hx s.canvasW.isLt)
  have ey : (BitVec.ofNat 16 y).toNat = y := by
    rw [BitVec.toNat_ofNat]; exact Nat.mod_eq_of_lt (lt_trans hy s.canvasH.isLt)
  obtain ⟨r, d, hl, hr⟩ := latchPixel_cases (fbRead s x y) s
  refine ⟨r, d, ?_, hr⟩
  simp only [hostReadPixel, hostExec_eq_effect (hd _) hc]
  rcases effect_rdpix_cases (BitVec.ofNat 16 x) (BitVec.ofNat 16 y) s with ⟨h, -⟩ | ⟨-, e⟩
  · rw [ex, ey, hp] at h; cases h
  · rw [e, ex, ey, hl]; rfl

/-- Pixels read one after another from an idle block: one word for each, in order, and only
`RESULT`, `LAST_CODE` and the draw counter move. -/
theorem hostReadPixels_cases (hd : ∀ i, decode (encode i) = .ok i) :
    ∀ (ps : List (Nat × Nat)) {s : State}, s.cmdReg = none →
      (∀ p ∈ ps, s.hasPixel p.1 p.2 = true) →
      List.Forall₂ (fun p w => (fbRead s p.1 p.2).readsAs w) ps (hostReadPixels ps s).1 ∧
        ∃ r code d, (hostReadPixels ps s).2 = withReadResult r code d s := by
  intro ps
  induction ps with
  | nil => intro s _ _; exact ⟨.nil, s.result, s.lastCode, s.draws, rfl⟩
  | cons p ps ih =>
    intro s hc hp
    obtain ⟨r, d, he, hr⟩ := hostReadPixel_cases hd hc (hp p (by simp))
    obtain ⟨hw, r', code, d', ht⟩ :=
      ih (s := withReadResult r 0 d s) hc fun q hq => hp q (by simp [hq])
    simp only [hostReadPixels, he]
    exact ⟨.cons hr hw, r', code, d', ht.trans (withReadResult_twice ..)⟩

theorem mem_pixelCoords {w h : Nat} {p : Nat × Nat} :
    p ∈ pixelCoords w h ↔ p.1 < w ∧ p.2 < h := by
  obtain ⟨x, y⟩ := p
  simp [pixelCoords, and_comm]

theorem pixelCoords_succ (w h : Nat) :
    pixelCoords w (h + 1) = pixelCoords w h ++ (List.range w).map fun x => (x, h) := by
  simp [pixelCoords, List.range_succ]

theorem length_pixelCoords (w h : Nat) : (pixelCoords w h).length = w * h := by
  induction h with
  | zero => rfl
  | succ h ih => rw [pixelCoords_succ, List.length_append, ih, List.length_map, List.length_range]; ring

/-- The place of a pixel in the read-out is its linear address (R61, R32). -/
theorem getElem?_pixelCoords {w h x y : Nat} (hx : x < w) (hy : y < h) :
    (pixelCoords w h)[y * w + x]? = some (x, y) := by
  induction h with
  | zero => omega
  | succ h ih =>
    rw [pixelCoords_succ]
    have hlen := length_pixelCoords w h
    rcases Nat.lt_or_ge y h with hlt | hge
    · rw [List.getElem?_append_left]
      · exact ih hlt
      · have : (y + 1) * w ≤ h * w := Nat.mul_le_mul_right _ hlt
        rw [hlen, Nat.mul_comm w h]; rw [Nat.add_mul] at this; omega
    · have hyh : y = h := by omega
      subst hyh
      rw [List.getElem?_append_right (by rw [hlen, Nat.mul_comm]; omega), hlen, Nat.mul_comm w y,
        Nat.add_sub_cancel_left]
      simp [hx]

end Sys2Proof.Machine
end

