-- ==== Sys2Proof/Laws/TileDecoder.lean ====
section
/-! SUPPORT. The tile unpacker's operand computations as arithmetic: which characters are dropped, how the
length counts, where a nibble is stored, and a shade as a number. -/

namespace Sys2Proof.Machine

theorem isStrip_iff (ch : CodeUnit) : isStrip ch = true ↔ ch = 0x20 ∨ ch = 0x0D := by
  simp [isStrip]

theorem satSucc_toNat (n : BitVec 6) : (satSucc n).toNat = min (n.toNat + 1) 63 := by
  revert n; decide

theorem storeNibble_get (nib : Vector Nibble 32) (len : BitVec 6) (v : Nibble) (k : Fin 32) :
    (storeNibble nib len v).get k = if k.val = len.toNat then v else nib.get k := by
  unfold storeNibble
  split
  · simp [Vector.get_eq_getElem, Vector.getElem_set, eq_comm]
  · rw [if_neg (by omega)]

theorem recordByte_toNat (nib : Vector Nibble 32) (k : Fin 16) :
    (recordByte nib k).toNat =
      (nib.get ⟨2 * k.val, by omega⟩).toNat * 16 + (nib.get ⟨2 * k.val + 1, by omega⟩).toNat := by
  have h1 := (nib.get ⟨2 * k.val, by omega⟩).isLt
  have h2 := (nib.get ⟨2 * k.val + 1, by omega⟩).isLt
  unfold recordByte
  rw [BitVec.toNat_add, BitVec.toNat_mul, BitVec.toNat_setWidth, BitVec.toNat_setWidth,
    show BitVec.toNat (16 : BitVec 8) = 16 from rfl]
  omega

/-- A shade is twice the high plane's bit plus the low plane's (R106). -/
theorem planeShade_toNat (nib : Vector Nibble 32) (j i : Fin 8) :
    (planeShade nib j i).toNat =
      2 * ((recordByte nib ⟨2 * j.val + 1, by omega⟩).toNat / 2 ^ (7 - i.val) % 2) +
        (recordByte nib ⟨2 * j.val, by omega⟩).toNat / 2 ^ (7 - i.val) % 2 := by
  have pair : ∀ a b : Bool, (BitVec.ofBool a ++ BitVec.ofBool b).toNat = 2 * a.toNat + b.toNat := by
    decide
  have bit : ∀ n : Nat, (decide (n % 2 = 1)).toNat = n % 2 := fun n => by
    rcases Nat.mod_two_eq_zero_or_one n with h | h <;> simp [h]
  simp only [planeShade, pair, BitVec.getLsbD, Nat.testBit_eq_decide_div_mod_eq, bit]

end Sys2Proof.Machine
end

