-- ==== Sys2Proof/Tests/Slice0.lean ====
section
/-! SUPPORT. The model's own tests: the smoke test of WellFormed, words written out from spec/30_encoding.md,
single steps with the results of spec/95_test_vectors.md, and for each obligation with hypotheses a
concrete instance that meets them. -/

namespace Sys2Proof.Tests

open Sys2Proof.Machine Sys2Proof.Safety

/-! ### The states of the tests -/

/-- The example palette 0 of spec/95_test_vectors.md. -/
def examplePal0 : Palette := #v[0xFFFFFF, 0xAAAAAA, 0x555555, 0x000000]

/-- The example palette 1 of spec/95_test_vectors.md. -/
def examplePal1 : Palette := #v[0x9BBC0F, 0x8BAC0F, 0x306230, 0x0F380F]

/-- The parameters the test vectors take: `FB_MAX_PIXELS` = 1 048 576 and the example palettes. -/
def exampleParams : Params :=
  { fbMaxPixels := 1048576, paletteGray := examplePal0, paletteGreen := examplePal1 }

/-- Reset with those parameters. -/
def s0 : State := State.resetWith exampleParams

/-- The state after one word is executed from `s`. -/
def after (w : CmdWord) (s : State) : State :=
  match step (s.withFetchWord 64 w.toNat) with
  | .next t => t
  | .fault _ => s
  | .refused _ => s

/-- `RECORD` of the characters written. -/
def chars (s : String) : List CodeUnit := s.toList.map fun c => BitVec.ofNat 8 c.toNat

/-- A `16 × 8` canvas filled with `0x123456` (set-up of V-PNT-1). -/
def filledState : State := { s0 with canvasW := 16, canvasH := 8, fb := Memory.filled 128 0x123456 }

/-- That canvas and a tile of shade 0 but for entry 0, of shade 1 (V-DEC-6). -/
def tileState : State :=
  { filledState with
    tile := (Vector.replicate 64 0).set 0 1
    tileValid := true }

/-- A record of 32 kept characters `80` and then zeros (V-DEC-6), before its REC_END. -/
def fullRecord : State :=
  { s0 with recNib := (Vector.replicate 32 0).set 0 8, recLen := 32 }

/-- A `4 × 1` canvas that shows the four colours of a palette, one a pixel. -/
def bands (p : Palette) : State :=
  { s0 with
    canvasW := 4
    canvasH := 1
    fb := [(0, p.get 0), (1, p.get 1), (2, p.get 2), (3, p.get 3)] }

/-- Example palette 0 rotated (R146). -/
def rotatedPal : Palette := #v[0xAAAAAA, 0x555555, 0x000000, 0xFFFFFF]

/-- A palette to which example palette 0 can be swapped, and from which it cannot be swapped back. -/
def oneWayPal : Palette := #v[0x111111, 0xFFFFFF, 0x222222, 0x333333]

/-- A host whose grid is one tile of `8 × 8` device pixels. -/
def smallHost : HostConfig :=
  { params := { tilesPerRow := 1, targetWidth := 8, dpiX := 96, dpiY := 96 }
    palettes := #v[examplePal0, examplePal1]
    sel := 0 }

/-! ### WellFormed refuses -/

theorem test_wf_refuses_missing_operand : AsmCommand.wellFormed ⟨.alloc, [16]⟩ = false := by decide
theorem test_wf_refuses_extra_operand : AsmCommand.wellFormed ⟨.nop, [0]⟩ = false := by decide
theorem test_wf_refuses_wide_operand : AsmCommand.wellFormed ⟨.rdshade, [64]⟩ = false := by decide
theorem test_wf_refuses_wide_colour :
    AsmCommand.wellFormed ⟨.fill, [0x1000000]⟩ = false := by decide
theorem test_wf_accepts_widest_operands :
    AsmCommand.wellFormed ⟨.paint, [1, 65535, 65535, 255, 255]⟩ = true := by decide

/-! ### Words, field by field from rule R83 -/

theorem test_decode_nop : decode (0x00#8 ++ 0#56) = .ok .nop := by decide
theorem test_decode_recBegin : decode (0x01#8 ++ 0#56) = .ok .recBegin := by decide
theorem test_decode_recChar : decode (0x02#8 ++ 0#48 ++ 0x8F#8) = .ok (.recChar 0x8F) := by decide
theorem test_decode_recEnd : decode (0x03#8 ++ 0#56) = .ok .recEnd := by decide
theorem test_decode_rdshade : decode (0x04#8 ++ 0#50 ++ 0b100001#6) = .ok (.rdshade 33) := by decide
theorem test_decode_alloc :
    decode (0x10#8 ++ 0#24 ++ 0x8001#16 ++ 0x4002#16) = .ok (.alloc 0x8001 0x4002) := by decide
theorem test_decode_fill : decode (0x11#8 ++ 0#32 ++ 0x812345#24) = .ok (.fill 0x812345) := by decide
theorem test_decode_paint :
    decode (0x12#8 ++ 0#7 ++ 1#1 ++ 0x8001#16 ++ 0x4002#16 ++ 0x83#8 ++ 0x45#8) =
      .ok (.paint 1 0x8001 0x4002 0x83 0x45) := by decide
theorem test_decode_replace :
    decode (0x13#8 ++ 0#8 ++ 0x812345#24 ++ 0x6789AB#24) = .ok (.replace 0x812345 0x6789AB) := by
  decide
theorem test_decode_materialize :
    decode (0x14#8 ++ 0#24 ++ 0x8001#16 ++ 0x4002#16) = .ok (.materialize 0x8001 0x4002) := by decide
theorem test_decode_rdpix :
    decode (0x15#8 ++ 0#24 ++ 0x8001#16 ++ 0x4002#16) = .ok (.rdpix 0x8001 0x4002) := by decide
theorem test_decode_setpal :
    decode (0x20#8 ++ 0#7 ++ 1#1 ++ 0#14 ++ 0b10#2 ++ 0#8 ++ 0x812345#24) =
      .ok (.setpal 1 2 0x812345) := by decide
theorem test_decode_rdpal :
    decode (0x21#8 ++ 0#7 ++ 1#1 ++ 0#14 ++ 0b11#2 ++ 0#32) = .ok (.rdpal 1 3) := by decide
theorem test_decode_clrerr : decode (0x30#8 ++ 0#50 ++ 0b100001#6) = .ok (.clrerr 0x21) := by decide

/-- V-CTL-6 and V-RDS-8: the two ways a word is no command. -/
theorem test_decode_rejects_by_name :
    decode 0xFF00000000000000 = .error (.unassignedOpcode 0xFF) ∧
      decode 0x0400000000000040 = .error (.reservedBits 0x04) := by decide

/-- Words of rule R91's table, encoded. -/
theorem test_encode_table_words :
    encode (.paint 0 1 0 3 3) = 0x1200000100000303 ∧
      encode (.replace 0xFFFFFF 0x9BBC0F) = 0x1300FFFFFF9BBC0F ∧
      encode (.setpal 1 2 0x306230) = 0x2001000200306230 ∧
      encode (.rdpal 1 3) = 0x2101000300000000 := by decide

theorem test_decodeTableWord :
    decodeTableWord 64 0x1000000001E00018 = some (.alloc 480 24) ∧
      decodeTableWord 64 0x0000000000000001 = none := by decide

/-- The text of rule R91's table, with a comment and a quoted character. -/
theorem test_assembler_reads_lines :
    parseLine "PAINT 0, 1, 0, 3, 3 ; tile".toList = .command (.paint 0 1 0 3 3) ∧
      parseLine "REC_CHAR 'F'".toList = .command (.recChar 0x46) ∧
      parseLine "RDSHADE 64".toList = .malformed := by decide +kernel

/-! ### One step each (spec/95_test_vectors.md) -/

/-- V-CTL-1. -/
theorem test_nop_keeps_errstat :
    let s := { s0 with lastCode := 4, errstat := 0b001000 }
    (after 0x0000000000000000 s).errstat = 0b001000 ∧ (after 0x0000000000000000 s).lastCode = 0 := by
  decide

/-- V-DEC-22: REC_BEGIN abandons a record. -/
theorem test_recBegin_abandons :
    (after 0x0100000000000000 { s0 with recLen := 17, recNonhex := true }).recLen = 0 ∧
      (after 0x0100000000000000 { s0 with recLen := 17, recNonhex := true }).recNonhex = false := by
  decide

/-- V-DEC-23, its second line: the digit `f` is kept. -/
theorem test_recChar_keeps_digit :
    (after 0x0200000000000066 s0).recNib.get 0 = 15 ∧ (after 0x0200000000000066 s0).recLen = 1 := by
  decide

/-- V-DEC-23, its first line: a space is dropped. -/
theorem test_recChar_drops_space : (after 0x0200000000000020 s0).recLen = 0 := by decide

/-- V-DEC-6: row 0 is `10000000`, the other rows 0. -/
theorem test_recEnd_unpacks :
    (after 0x0300000000000000 fullRecord).tile = (Vector.replicate 64 0).set 0 1 ∧
      (after 0x0300000000000000 fullRecord).tileValid = true := by decide +kernel

/-- V-DEC-16: the length error wins over the digit error. -/
theorem test_recEnd_length_wins :
    (after 0x0300000000000000 { s0 with recLen := 41, recNonhex := true }).lastCode = 1 := by decide

/-- V-RDS-6. -/
theorem test_rdshade_reads : (after 0x0400000000000000 tileState).result = 1 := by decide +kernel

/-- V-RDS-5. -/
theorem test_rdshade_notile :
    (after 0x0400000000000000 s0).lastCode = 3 ∧
      (after 0x0400000000000000 s0).errstat = 0b010000 := by decide

/-- V-ALC-4: exactly `FB_MAX_PIXELS` fits. -/
theorem test_alloc_fits_exactly :
    (after 0x1000000004000400 s0).canvasW = 1024 ∧ (after 0x1000000004000400 s0).lastCode = 0 := by
  decide

/-- V-ALC-5: one column more does not. -/
theorem test_alloc_too_big :
    (after 0x1000000004010400 s0).lastCode = 6 ∧
      (after 0x1000000004010400 s0).errstat = 0b000100 := by decide

/-- V-FIL-1, at the last pixel. -/
theorem test_fill_last_pixel :
    fbRead (after 0x1100000000654321 filledState) 15 7 = .defined 0x654321 := by decide +kernel

/-- V-FIL-2: no pixels to fill. -/
theorem test_fill_empty : (after 0x1100000000FFFFFF s0).fb = [] := by decide

/-- V-PNT-7: the rectangle reaches the right edge exactly. -/
theorem test_paint_right_edge :
    let t := after 0x1200000000000201 { tileState with tile := Vector.replicate 64 0 }
    fbRead t 0 0 = .defined 0xFFFFFF ∧ fbRead t 15 7 = .defined 0xFFFFFF ∧ t.lastCode = 0 := by
  decide +kernel

/-- V-PNT-8: below the canvas, nothing is written. -/
theorem test_paint_oob :
    (after 0x1200000000010101 tileState).lastCode = 4 ∧
      (after 0x1200000000010101 tileState).fb = tileState.fb := by decide +kernel

/-- V-REP-1. -/
theorem test_replace_matches :
    fbRead (after 0x1300FFFFFF9BBC0F (bands examplePal0)) 0 0 = .defined 0x9BBC0F ∧
      fbRead (after 0x1300FFFFFF9BBC0F (bands examplePal0)) 3 0 = .defined 0x000000 := by
  decide +kernel

/-- V-REP-5: `Undef` stays `Undef`. -/
theorem test_replace_undef :
    fbRead (after 0x1300000000FFFFFF { s0 with canvasW := 16, canvasH := 8 }) 0 0 = .undef := by
  decide

/-- V-MAT-2. -/
theorem test_materialize_order :
    (after 0x140000000000FFFF s0).dpiX = 0 ∧ (after 0x140000000000FFFF s0).dpiY = 65535 := by decide

/-- V-PIX-1's place with the colour of V-FIL-1. -/
theorem test_rdpix_reads : (after 0x15000000000F0007 filledState).result = 0x00123456 := by
  decide +kernel

/-- V-PIX-3. -/
theorem test_rdpix_oob : (after 0x1500000000000008 filledState).lastCode = 4 := by decide +kernel

/-- The eighth SETPAL of §2.8, and the bank beside it. -/
theorem test_setpal_writes :
    palEntry (after 0x2001000300ABCDEF s0).pal 1 3 = 0xABCDEF ∧
      palEntry (after 0x2001000300ABCDEF s0).pal 0 3 = 0x000000 := by decide

/-- V-PAL-1. -/
theorem test_rdpal_reads : (after 0x2101000200000000 s0).result = 0x00306230 := by decide

/-- V-CTL-3. -/
theorem test_clrerr_clears_one :
    (after 0x3000000000000008 { s0 with errstat := 0b011101 }).errstat = 0b010101 := by decide

/-- V-CTL-9: a reserved bit makes the word illegal and nothing is pushed. -/
theorem test_illegal_word :
    (after 0x0200000000000141 s0).lastCode = 7 ∧ (after 0x0200000000000141 s0).errstat = 0b000001 ∧
      (after 0x0200000000000141 s0).recLen = 0 := by decide

/-- The very next step after `withFetchWord` runs the word, from `State.reset` too. -/
theorem test_step_runs_fetched_word :
    step (State.reset.withFetchWord 64 0x140000000000FFFF) =
      .next { State.reset with dpiX := 0, dpiY := 65535 } := rfl

/-- V-CTL-11, its second run: FILL is discarded while ALLOC is pending. -/
theorem test_overrun :
    let s := { s0 with cmdReg := some 0x1000000000100008, schedule := [.issue 0x1100000000000000] }
    step s = .next { s with schedule := [], errstat := 0b100000 } := rfl

/-- `STATUS` of V-DEC-13 before its REC_END, and of V-PIX-2 after it. -/
theorem test_status_words :
    statusReg { s0 with recLen := 32, recNonhex := true } = 0x00006000 ∧
      statusReg { s0 with lastCode := 4, errstat := 0b001000 } = 0x00000044 := by decide

/-- The words of §2.8's table, in its order. -/
theorem test_load_palette_words :
    (loadPaletteCommands #v[examplePal0, examplePal1]).map encode =
      [0x2000000000FFFFFF, 0x2000000100AAAAAA, 0x2000000200555555, 0x2000000300000000,
        0x20010000009BBC0F, 0x20010001008BAC0F, 0x2001000200306230, 0x20010003000F380F] := by decide

/-! ### Witnesses: for each obligation with hypotheses, an instance that meets them all -/

theorem test_witness_EncodeOfDecode : decode 0x1500000000080000 = .ok (.rdpix 8 0) := by decide

/-- The last row with every operand bit set, and a word no row matches. -/
theorem test_witness_DecodeFollowsOpcodeMap :
    let r : OpcodeRow := ⟨.clrerr, 0x3000000000000000, 0xFFFFFFFFFFFFFFC0⟩
    r ∈ opcodeTable ∧ 0x300000000000003F#64 &&& r.mask = r.matchBits ∧
      ∀ r ∈ opcodeTable, 0x3000000000000040#64 &&& r.mask ≠ r.matchBits := by decide

/-- A waiting word with a reserved bit set (V-RDS-8), and one with an unassigned opcode (V-CTL-6). -/
def pending (w : CmdWord) : State := { s0 with cmdReg := some w }

theorem test_witness_ReservedBitExecutesAsIllegal :
    let r : OpcodeRow := ⟨.rdshade, 0x0400000000000000, 0xFFFFFFFFFFFFFFC0⟩
    r ∈ opcodeTable ∧ opcodeOf 0x0400000000000040 = opcodeOf r.matchBits ∧
      0x0400000000000040#64 &&& r.mask ≠ r.matchBits ∧
      (pending 0x0400000000000040).schedule = [] ∧
      (pending 0x0400000000000040).cmdReg = some 0x0400000000000040 := by decide

theorem test_witness_IllegalWordChangesNothingElse :
    (opcodeOf 0x0500000000000000 = 0x05 ∧ opcodeOf 0x0F00000000000000 = 0x0F ∧
      opcodeOf 0x1600000000000000 = 0x16 ∧ opcodeOf 0x1F00000000000000 = 0x1F ∧
      opcodeOf 0x2200000000000000 = 0x22 ∧ opcodeOf 0x2F00000000000000 = 0x2F ∧
      opcodeOf 0x3100000000000000 = 0x31 ∧ opcodeOf 0xFF00000000000000 = 0xFF) ∧
    (∀ r ∈ opcodeTable, 0xFF00000000000000#64 &&& r.mask ≠ r.matchBits) ∧
      (pending 0xFF00000000000000).schedule = [] ∧
      (pending 0xFF00000000000000).cmdReg = some 0xFF00000000000000 := by decide

theorem test_witness_AssemblerKeepsOperands :
    assembleCommand ⟨.rdshade, [63]⟩ = some (.rdshade 63) ∧
      AsmCommand.wellFormed ⟨.rdshade, [64]⟩ = false := by decide

theorem test_witness_StepExecutesPendingCommand :
    ((pending 0).cmdReg = some 0 ∧ decode 0 = .ok .nop ∧ (pending 0).schedule = []) ∧
      (pending 1).cmdReg = some 1 ∧ decode 1 = .error (.reservedBits 0) ∧
      (pending 1).schedule = [] := by decide

theorem test_witness_IdleBlockKeepsState : s0.cmdReg = none ∧ s0.schedule = [] := by decide

theorem test_witness_EveryCommandCompletes :
    (pending 1).cmdReg = some 1 ∧ (pending 1).schedule = [] := by decide

theorem test_witness_IssueTakesOrOverruns :
    let s := { s0 with schedule := [.issue 5] }
    let b := { s with cmdReg := some 0 }
    (s.schedule = .issue 5 :: [] ∧ s.cmdReg = none) ∧
      b.schedule = .issue 5 :: [] ∧ b.cmdReg = some 0 := by decide

theorem test_witness_OverrunLeavesPendingCommand :
    let s := { pending 0 with schedule := [.issue 5, .sequencer] }
    s.cmdReg = some 0 ∧ s.schedule = [.issue 5, .sequencer] := by decide

/-- The host waits, and OVERRUN stands from before. -/
theorem test_witness_WaitingHostNeverOverruns :
    let s := { s0 with errstat := 0b100000, schedule := [.issue 0, .sequencer, .issue 0] }
    waitsForIdle s.busy s.schedule = true ∧
      run 3 s = .next { s with schedule := [], cmdReg := some 0 } ∧
      ({ s with schedule := [], cmdReg := some 0 } : State).errstat.getLsbD 5 = true :=
  ⟨rfl, rfl, rfl⟩

theorem test_witness_CommandsRunInIssueOrder : s0.cmdReg = none := by decide

theorem test_witness_PendingCommandIsExecuted :
    let s := { pending 0 with schedule := [.issue 5, .readReg 6] }
    s.cmdReg = some 0 ∧ ∀ e ∈ s.schedule, (∃ v, e = .issue v) ∨ ∃ n, n < 7 ∧ e = .readReg n := by
  refine ⟨rfl, fun e he => ?_⟩
  rcases List.mem_cons.mp he with rfl | he
  · exact .inl ⟨5, rfl⟩
  · exact .inr ⟨6, by omega, by simpa using he⟩

theorem test_witness_ReadRegHasNoSideEffect :
    let s := { pending 0 with schedule := [.readReg 6] }
    6 < 7 ∧ s.schedule = .readReg 6 :: [] := by decide

theorem test_witness_UnmappedRegisterIsRefused :
    let s := { s0 with schedule := [.readReg 7] }
    7 ≤ 7 ∧ s.schedule = .readReg 7 :: [] := by decide

theorem test_witness_ResetEventRestoresResetValues :
    let s := { pending 0 with schedule := [.reset] }
    s.schedule = .reset :: [] := by decide

theorem test_witness_EveryStepKeepsInvariant :
    Inv (pending 0) ∧ step (pending 0) = .next s0 := by
  refine ⟨⟨rfl, by decide, by decide, by decide, by decide, by decide, fun e he => ?_⟩, rfl⟩
  cases e <;> exact absurd he (by decide)

/-- Both ends of each of rule R8's three digit ranges, and the code units beside them. -/
theorem test_witness_CharacterFunctions :
    hexval 0x30 = 0 ∧ hexval 0x39 = 9 ∧ hexval 0x41 = 10 ∧ hexval 0x46 = 15 ∧ hexval 0x61 = 10 ∧
      hexval 0x66 = 15 ∧ isHex 0x2F = false ∧ isHex 0x3A = false ∧ isHex 0x40 = false ∧
      isHex 0x47 = false ∧ isHex 0x60 = false ∧ isHex 0x67 = false := by decide

theorem test_witness_RecCharKeepsOrDrops :
    ((0x20 : CodeUnit) = 0x20 ∨ (0x20 : CodeUnit) = 0x0D) ∧
      (0x46 : CodeUnit) ≠ 0x20 ∧ (0x46 : CodeUnit) ≠ 0x0D := by decide

theorem test_witness_LongRecordSaturates :
    s0.cmdReg = none ∧ (∀ ch ∈ List.replicate 63 (0x30 : CodeUnit), isStrip ch = false) ∧
      63 ≤ (List.replicate 63 (0x30 : CodeUnit)).length := by decide

theorem test_witness_RecEndDecodesOrRefuses :
    ({ fullRecord with recLen := 31 } : State).recLen ≠ 32 ∧
      (({ fullRecord with recNonhex := true } : State).recLen = 32 ∧
        ({ fullRecord with recNonhex := true } : State).recNonhex = true) ∧
      fullRecord.recLen = 32 ∧ fullRecord.recNonhex = false := by decide

/-- V-DEC-10's kind of record: the same digits, once with a space and a carriage return. -/
theorem test_witness_RecordDecodeIsPure :
    let r := chars "FF00FF00FF00FF00FF00FF00FF00FF00"
    let r' := 0x20 :: r ++ [0x0D]
    s0.cmdReg = none ∧ filledState.cmdReg = none ∧
      (r.filter fun ch => !isStrip ch) = r'.filter (fun ch => !isStrip ch) ∧
      (hostRecord r s0).1 = 0 := by decide +kernel

/-- A record the source's decoder takes and one it refuses. -/
theorem test_witness_RecordRefinesSourceDecoder :
    s0.cmdReg = none ∧ (sourceDecode (chars "FF00FF00FF00FF00FF00FF00FF00FF00")).isSome = true ∧
      sourceDecode (chars "bad") = none := by decide +kernel

theorem test_witness_RdshadeReadsTileEntry : tileState.tileValid = true ∧ s0.tileValid = false := by
  decide

theorem test_witness_LinearAddressReadsLastWrite :
    filledState.hasPixel 15 7 = true ∧ 0 < filledState.pixelCount ∧ 127 < filledState.pixelCount := by
  decide

/-- At the capacity, one column above it, and a size that is already there. -/
theorem test_witness_AllocReallocates :
    s0.params.fbMaxPixels < (1025#16).toNat * (1024#16).toNat ∧
      (1024#16).toNat * (1024#16).toNat ≤ s0.params.fbMaxPixels ∧
      ¬(1024#16 = s0.canvasW ∧ 1024#16 = s0.canvasH) ∧
      (16#16).toNat * (8#16).toNat ≤ filledState.params.fbMaxPixels ∧
      16#16 = filledState.canvasW ∧ 8#16 = filledState.canvasH := by decide

theorem test_witness_FillSetsEveryPixel :
    15 < filledState.canvasW.toNat ∧ 7 < filledState.canvasH.toNat := by decide

/-- V-PNT-4's tile: `x` 8 to 15 on a 16-wide canvas; pixel 7 lies outside, 8 and 15 inside. -/
theorem test_witness_PaintScalesTileIntoRectangle :
    Memory.wf tileState.fb = true ∧ (1 : Scale) ≠ 0 ∧ tileState.tileValid = true ∧
      (1#16).toNat * 8 * (1#8).toNat + 8 * (1#8).toNat ≤ tileState.canvasW.toNat ∧
      (0#16).toNat * 8 * (1#8).toNat + 8 * (1#8).toNat ≤ tileState.canvasH.toNat ∧
      (15 < tileState.canvasW.toNat ∧ 7 < tileState.canvasH.toNat ∧ 8 ≤ 15 ∧ 15 < 16) ∧
      ¬(8 ≤ 7 ∧ 7 < 16) := by decide +kernel

/-- V-PNT-2, V-PNT-1, V-PNT-8 and V-PNT-7: one instance for each outcome. -/
theorem test_witness_PaintFollowsItsPseudocode :
    ((0 : Scale) = 0 ∨ (1 : Scale) = 0) ∧ (1 : Scale) ≠ 0 ∧ filledState.tileValid = false ∧
      (tileState.tileValid = true ∧
        tileState.canvasH.toNat < (1#16).toNat * 8 * (1#8).toNat + 8 * (1#8).toNat) ∧
      (2 : Scale) ≠ 0 ∧ Memory.wf tileState.fb = true ∧
      (0#16).toNat * 8 * (2#8).toNat + 8 * (2#8).toNat ≤ tileState.canvasW.toNat ∧
      (0#16).toNat * 8 * (1#8).toNat + 8 * (1#8).toNat ≤ tileState.canvasH.toNat := by decide +kernel

theorem test_witness_ReplaceRewritesMatchingPixels :
    0 < (bands examplePal0).canvasW.toNat ∧ 3 < (bands examplePal0).canvasW.toNat ∧
      0 < (bands examplePal0).canvasH.toNat ∧
      fbRead (bands examplePal0) 0 0 = .defined 0xFFFFFF ∧
      fbRead (bands examplePal0) 3 0 ≠ .defined 0xFFFFFF := by decide

theorem test_witness_ReplacesCompose :
    (bands examplePal0).cmdReg = none ∧ (bands examplePal0).hasPixel 3 0 = true ∧
      fbRead (bands examplePal0) 3 0 = .defined 0x000000 ∧
      filledState.cmdReg = none ∧ ({ filledState with fb := [] } : State).hasPixel 15 7 = true ∧
      fbRead { filledState with fb := [] } 15 7 = .undef := by decide

/-- The example palettes satisfy SWAP in both directions. -/
theorem swapOk_examples : swapOk examplePal0 examplePal1 ∧ swapOk examplePal1 examplePal0 := by
  refine ⟨⟨?_, ?_⟩, ?_, ?_⟩ <;> decide

/-- Every pixel of `bands p` has a colour of `p`. -/
theorem paintedFrom_bands (p : Palette) : paintedFrom p (bands p) := by
  intro x y h
  obtain ⟨hx, hy⟩ := (hasPixel_iff _ x y).mp h
  have hx : x < 4 := hx
  have hy : y = 0 := Nat.lt_one_iff.mp hy
  subst hy
  refine ⟨BitVec.ofNat 2 x, ?_⟩
  have : x = 0 ∨ x = 1 ∨ x = 2 ∨ x = 3 := by omega
  rcases this with rfl | rfl | rfl | rfl <;> rfl

theorem test_witness_PaletteSwapRetintsCanvas :
    (bands examplePal0).cmdReg = none ∧ swapOk examplePal0 examplePal1 ∧
      paintedFrom examplePal0 (bands examplePal0) ∧ (bands examplePal0).hasPixel 3 0 = true ∧
      fbRead (bands examplePal0) 3 0 = .defined (paletteEntry examplePal0 3) :=
  ⟨rfl, swapOk_examples.1, paintedFrom_bands _, rfl, rfl⟩

theorem test_witness_PaletteSwapRoundTrip :
    (bands examplePal0).cmdReg = none ∧ swapOk examplePal0 examplePal1 ∧
      swapOk examplePal1 examplePal0 ∧ paintedFrom examplePal0 (bands examplePal0) ∧
      Memory.wf (bands examplePal0).fb = true ∧
      ∀ p ∈ (bands examplePal0).fb, p.1 < (bands examplePal0).pixelCount :=
  ⟨rfl, swapOk_examples.1, swapOk_examples.2, paintedFrom_bands _, rfl, by decide⟩

/-- One instance for each clause: a toggle there and back, the rotated palette of rule R146 whose SWAP
fails, and palettes with SWAP one way only. -/
theorem test_witness_ToggleChecksItsPalettes :
    (bands examplePal0).cmdReg = none ∧ hostParamsValid smallHost.params = true ∧
      (swapOk examplePal0 examplePal1 ∧ swapOk examplePal1 examplePal0 ∧
        paintedFrom examplePal0 (bands examplePal0) ∧ Memory.wf (bands examplePal0).fb = true ∧
        ∀ p ∈ (bands examplePal0).fb, p.1 < (bands examplePal0).pixelCount) ∧
      ¬ swapOk examplePal0 rotatedPal ∧
      (swapOk examplePal0 oneWayPal ∧ ¬ swapOk oneWayPal examplePal0) :=
  ⟨rfl, by decide, test_witness_PaletteSwapRoundTrip.2, by decide, by decide, by decide⟩

/-- R248: with the rotated palette the host issues nothing and stops. -/
theorem test_toggle_checks_swap :
    (hostSession { smallHost with palettes := #v[examplePal0, rotatedPal] } [.toggle]
      (bands examplePal0)) =
    { config := { smallHost with palettes := #v[examplePal0, rotatedPal] }, images := [],
      stopped := some .swapConditionFails, state := bands examplePal0 } := by decide +kernel

/-- R248: with SWAP one way only a toggle runs, and a host that toggles back does not begin. -/
theorem test_toggle_checks_way_back :
    (fun c => (swapCheck c false, swapCheck c true))
      { smallHost with palettes := #v[examplePal0, oneWayPal] } = (true, false) := by decide +kernel

theorem test_witness_RotatedPaletteCollapses :
    (bands #v[0xFFFFFF, 0xAAAAAA, 0x555555, 0x000000]).cmdReg = none ∧
      paintedFrom #v[0xFFFFFF, 0xAAAAAA, 0x555555, 0x000000]
        (bands #v[0xFFFFFF, 0xAAAAAA, 0x555555, 0x000000]) ∧
      (bands #v[0xFFFFFF, 0xAAAAAA, 0x555555, 0x000000]).hasPixel 3 0 = true :=
  ⟨rfl, paintedFrom_bands _, rfl⟩

theorem test_witness_EmptyCanvasCommands :
    let s := { tileState with canvasH := 0, fb := [] }
    (s.canvasW = 0 ∨ s.canvasH = 0) ∧ (∀ p ∈ s.fb, p.1 < s.pixelCount) ∧ (1 : Scale) ≠ 0 ∧
      s.tileValid = true := by decide

theorem test_witness_SnapshotKeptByOtherCommands :
    exec (.rdpix 0 0) s0 = .next { s0 with errstat := 0b001000, lastCode := 4 } := rfl

/-- Just outside, just inside on a `Defined` pixel, and on an `Undef` one. -/
theorem test_witness_RdpixReadsPixel :
    filledState.canvasW.toNat ≤ (16#16).toNat ∧ filledState.canvasH.toNat ≤ (8#16).toNat ∧
      (15#16).toNat < filledState.canvasW.toNat ∧ (7#16).toNat < filledState.canvasH.toNat ∧
      fbRead filledState (15#16).toNat (7#16).toNat = .defined 0x123456 ∧
      fbRead { filledState with fb := [] } (15#16).toNat (7#16).toNat = .undef := by decide +kernel

theorem test_witness_ProgrammingErrorsArePrecise :
    let t := { s0 with errstat := 0b010000, lastCode := 3 }
    (pending 0x0400000000000000).cmdReg = some 0x0400000000000000 ∧
      (pending 0x0400000000000000).schedule = [] ∧
      step (pending 0x0400000000000000) = .next t ∧ 3 ≤ t.lastCode.toNat :=
  ⟨rfl, rfl, rfl, by decide⟩

theorem test_witness_StickyBitsStayUntilClrerr :
    let s := { pending 0 with errstat := 0b100001 }
    step s = .next { s with cmdReg := none } ∧ s.schedule = [] ∧ s.cmdReg = some 0 ∧
      decode 0 = .ok .nop ∧ s.errstat.getLsbD 0 = true ∧ s.errstat.getLsbD 5 = true :=
  ⟨rfl, rfl, rfl, rfl, rfl, rfl⟩

theorem test_witness_CommandsWriteOnlyTheirFields :
    exec .nop filledState = .next { filledState with lastCode := 0 } := rfl

theorem test_witness_StatusNeverSteersCommands :
    exec (.rdpal 1 2) s0 = .next { s0 with result := 0x00306230 } := rfl

theorem test_witness_HostLayoutExample :
    let c : HostConfig :=
      { params := { dpiX := 96, dpiY := 96 }, palettes := #v[examplePal0, examplePal1], sel := 1 }
    c.params.tilesPerRow = 20 ∧ c.params.targetWidth = 480 ∧ 0 < 40 ∧ 39 < 40 := by decide

/-- E5's kind of blob: each kind of skipped line, and a record. -/
theorem test_witness_SkippedLinesIssueNothing :
    let lines := [chars "! a", chars "# header", chars "FF00FF00FF00FF00FF00FF00FF00FF00",
      chars "//c", [0x20, 0x0D], [], 0x7B :: chars " d"]
    (∀ l ∈ lines, ∀ ch ∈ l, ch ≠ 0x0A) ∧
      lines.filter isCandidate = [chars "FF00FF00FF00FF00FF00FF00FF00FF00"] ∧
      isCandidate (chars "/ c") = true := by decide +kernel

/-- The capture of one valid record (V-DEC-1) on the one-tile grid. -/
def capturedState : RenderOutcome := capture smallHost (chars "FF00FF00FF00FF00FF00FF00FF00FF00") s0

/-- V-DEC-1's tile on the whole canvas: every pixel has shade 1's colour, and so has every pixel of
the image the host delivers (R199). -/
theorem test_capture_delivers_image :
    (match capturedState with
      | .published image t =>
        decide (fbRead t 7 7 = .defined 0xAAAAAA) && decide (t.canvasH = 8) &&
          decide (image.pixels = List.replicate 64 0x00AAAAAA)
      | .stopped _ _ => false) = true := by decide +kernel

/-- The hypotheses of the statements about a published capture. -/
theorem published_exists :
    s0.cmdReg = none ∧
      ∃ image t, capture smallHost (chars "FF00FF00FF00FF00FF00FF00FF00FF00") s0 =
          .published image t ∧
        t.hasPixel 7 7 = true ∧ noError s0 := by
  refine ⟨rfl, ?_⟩
  have h : (match capturedState with
      | .published _ t => t.hasPixel 7 7
      | .stopped _ _ => false) = true := by decide +kernel
  cases hc : capturedState with
  | published image t => rw [hc] at h; exact ⟨image, t, hc, h, rfl⟩
  | stopped why t => rw [hc] at h; cases h

theorem test_witness_ReadOutDeliversEveryPixel :
    filledState.cmdReg = none ∧ filledState.hasPixel 15 7 = true ∧
      fbRead filledState 15 7 = .defined 0x123456 ∧
      fbRead { filledState with fb := [] } 15 7 = .undef := by decide +kernel

theorem test_witness_SinglePassGivesSameImage :
    s0.cmdReg = none ∧
      ∃ image t, capture smallHost (chars "FF00FF00FF00FF00FF00FF00FF00FF00") s0 =
        .published image t :=
  ⟨rfl, published_exists.2.imp fun _ h => h.imp fun _ h => h.1⟩

theorem test_witness_CapturePaintsEveryCell :
    s0.cmdReg = none ∧
      ∃ image t, capture smallHost (chars "FF00FF00FF00FF00FF00FF00FF00FF00") s0 =
          .published image t ∧
        t.hasPixel 7 7 = true :=
  ⟨rfl, published_exists.2.imp fun _ h => h.imp fun _ h => ⟨h.1, h.2.1⟩⟩

theorem test_witness_PublishedCaptureRaisesNoError :
    s0.cmdReg = none ∧ noError s0 ∧
      ∃ image t, capture smallHost (chars "FF00FF00FF00FF00FF00FF00FF00FF00") s0 =
        .published image t :=
  ⟨rfl, rfl, published_exists.2.imp fun _ h => h.imp fun _ h => h.1⟩

/-- R201: the second capture starts after the first one's image is read out. -/
theorem test_session_delivers_images_in_order :
    (hostSession smallHost
      [.captureEvent (chars "FF00FF00FF00FF00FF00FF00FF00FF00"),
        .captureEvent (chars "00FF00FF00FF00FF00FF00FF00FF00FF"), .disconnect] s0).images.map
        (fun image => image.pixels) =
      [List.replicate 64 0x00AAAAAA, List.replicate 64 0x00555555] := by decide +kernel

end Sys2Proof.Tests
end

section
/-! The character functions of spec/00_scope.md rule R8 as arithmetic on the code unit. -/

namespace Sys2Proof.Machine

variable {ch : CodeUnit}

/-! ### The digit classes as ranges -/

theorem isDigit_iff : isDigit ch = true ↔ 0x30 ≤ ch.toNat ∧ ch.toNat ≤ 0x39 := by
  simp [isDigit, BitVec.le_def]

theorem isUpperHex_iff : isUpperHex ch = true ↔ 0x41 ≤ ch.toNat ∧ ch.toNat ≤ 0x46 := by
  simp [isUpperHex, BitVec.le_def]

theorem isLowerHex_iff : isLowerHex ch = true ↔ 0x61 ≤ ch.toNat ∧ ch.toNat ≤ 0x66 := by
  simp [isLowerHex, BitVec.le_def]

theorem isHex_iff : isHex ch = true ↔ (0x30 ≤ ch.toNat ∧ ch.toNat ≤ 0x39) ∨
    (0x41 ≤ ch.toNat ∧ ch.toNat ≤ 0x46) ∨ (0x61 ≤ ch.toNat ∧ ch.toNat ≤ 0x66) := by
  simp only [isHex, Bool.or_eq_true, isDigit_iff, isUpperHex_iff, isLowerHex_iff, or_assoc]

/-! ### The digit's value on each range

The ranges are disjoint, so each of `hexval`'s tests fails below the range's own. -/

theorem hexval_toNat_of_digit (lo : 0x30 ≤ ch.toNat) (hi : ch.toNat ≤ 0x39) :
    (hexval ch).toNat = ch.toNat - 0x30 := by
  rw [hexval, if_pos (isDigit_iff.2 ⟨lo, hi⟩)]
  bv_omega

theorem hexval_toNat_of_upperHex (lo : 0x41 ≤ ch.toNat) (hi : ch.toNat ≤ 0x46) :
    (hexval ch).toNat = ch.toNat - 0x41 + 10 := by
  rw [hexval, if_neg (by rw [isDigit_iff]; omega), if_pos (isUpperHex_iff.2 ⟨lo, hi⟩)]
  bv_omega

theorem hexval_toNat_of_lowerHex (lo : 0x61 ≤ ch.toNat) (hi : ch.toNat ≤ 0x66) :
    (hexval ch).toNat = ch.toNat - 0x61 + 10 := by
  rw [hexval, if_neg (by rw [isDigit_iff]; omega), if_neg (by rw [isUpperHex_iff]; omega),
    if_pos (isLowerHex_iff.2 ⟨lo, hi⟩)]
  bv_omega

theorem hexval_eq_zero_of_not_isHex (h : isHex ch = false) : hexval ch = 0 := by
  simp only [isHex, Bool.or_eq_false_iff] at h
  obtain ⟨⟨digit, upper⟩, lower⟩ := h
  simp [hexval, digit, upper, lower]

end Sys2Proof.Machine
end

section
open Sys2Proof.Machine

/-- Settles O24: each clause is the law of one character function (R8). -/
theorem characterFunctions : Obligations.CharacterFunctions := fun ch =>
  ⟨isStrip_iff ch, isHex_iff, hexval_toNat_of_digit, hexval_toNat_of_upperHex,
    hexval_toNat_of_lowerHex, hexval_eq_zero_of_not_isHex⟩

end

section
/-! Host registers field by field (spec/10_state.md rules R42 to R46), and the canvas after reset. -/

namespace Sys2Proof.Machine

/-! ### Reading a host register (R40, R45, R46) -/

theorem readReg_of_lt {n : Nat} (h : n < 7) (s : State) :
    ∃ v, hostReg n s = some v ∧ readReg n s = .next { s with observed := v :: s.observed } := by
  obtain ⟨v, hv⟩ := Option.isSome_iff_exists.1 ((hostReg_isSome_iff n s).2 h)
  exact ⟨v, hv, by simp only [readReg, hv]⟩

theorem readReg_of_ge {n : Nat} (h : 7 ≤ n) (s : State) :
    readReg n s = .refused (.readRegUnmapped n) := by
  have hv : hostReg n s = none := by
    rw [← Option.not_isSome_iff_eq_none, hostReg_isSome_iff]
    omega
  simp only [readReg, hv]

/-- No host register shows the agents' later moves. -/
theorem hostReg_withSchedule (n : Nat) (s : State) (rest : List Event) :
    hostReg n { s with schedule := rest } = hostReg n s := rfl

/-! ### The fields of `STATUS` (R42)

A field wider than one bit is read by dropping the parts of the word below it; `readLastCode_eq` is
the law of `LAST_CODE`. -/

theorem errAny_iff (s : State) : s.errAny = true ↔ ∃ k, k < 6 ∧ s.errstat.getLsbD k = true := by
  rw [State.errAny, bne_iff_ne]
  constructor
  · contrapose!
    intro hclear
    exact BitVec.eq_of_getLsbD_eq fun k hk => by simpa using hclear k hk
  · rintro ⟨k, -, hset⟩ hzero
    simp [hzero] at hset

theorem busy_iff (s : State) : s.busy = true ↔ s.cmdReg ≠ none := by
  rw [State.busy, Option.isSome_iff_ne_none]

theorem statusReg_tileValid (s : State) : (statusReg s).getLsbD 0 = s.tileValid := by
  simp only [statusReg, BitVec.getLsbD_append]
  simp

theorem statusReg_busy (s : State) : (statusReg s).getLsbD 1 = s.busy := by
  simp only [statusReg, BitVec.getLsbD_append]
  simp

theorem statusReg_errAny (s : State) : (statusReg s).getLsbD 2 = s.errAny := by
  simp only [statusReg, BitVec.getLsbD_append]
  simp

theorem statusReg_reserved_3 (s : State) : (statusReg s).getLsbD 3 = false := by
  simp only [statusReg, BitVec.getLsbD_append]
  simp

theorem statusReg_recLen (s : State) : (statusReg s).extractLsb' 8 6 = s.recLen := by
  rw [statusReg]
  iterate 5 rw [BitVec.extractLsb'_append_eq_of_le (by omega)]
  exact BitVec.extractLsb'_append_eq_right

theorem statusReg_recNonhex (s : State) : (statusReg s).getLsbD 14 = s.recNonhex := by
  simp only [statusReg, BitVec.getLsbD_append]
  simp

theorem statusReg_reserved_31_15 (s : State) : (statusReg s).extractLsb' 15 17 = 0 := by
  rw [statusReg]
  iterate 7 rw [BitVec.extractLsb'_append_eq_of_le (by omega)]
  exact BitVec.extractLsb'_eq_self

theorem statusReg_resetWith (p : Params) : statusReg (State.resetWith p) = 0 := by
  simp [statusReg, State.resetWith, State.errAny, State.busy]

/-! ### The registers that widen an element (R43, R44) -/

/-- A widened element fills its own low bits and leaves the bits above them zero. -/
theorem setWidth_layout {n m : Nat} (v : BitVec n) (h : n ≤ m) :
    (v.setWidth m).extractLsb' 0 n = v ∧ (v.setWidth m).extractLsb' n (m - n) = 0 := by
  constructor
  · rw [BitVec.extractLsb'_setWidth_of_le (by omega), BitVec.extractLsb'_eq_self]
  · exact BitVec.eq_of_getLsbD_eq fun i _ => by simp

/-! ### The canvas after reset (R48) -/

theorem hasPixel_resetWith (p : Params) (x y : Nat) : (State.resetWith p).hasPixel x y = false := by
  simp [State.hasPixel, State.resetWith]

end Sys2Proof.Machine
end

section
open Sys2Proof.Machine

/-- Settles O16: the move is `readReg`, which a mapped register answers. -/
theorem readRegHasNoSideEffect : Obligations.ReadRegHasNoSideEffect := by
  intro s n rest hn hs
  obtain ⟨v, hv, hread⟩ := readReg_of_lt hn { s with schedule := rest }
  rw [hostReg_withSchedule] at hv
  exact ⟨v, hv, (step_scheduled hs).trans hread⟩

/-- Settles O17: the move is `readReg`, which an unmapped register refuses. -/
theorem unmappedRegisterIsRefused : Obligations.UnmappedRegisterIsRefused :=
  fun _ _ _ hn hs => (step_scheduled hs).trans (readReg_of_ge hn _)

/-- Settles O18: each clause is the law of one field of `statusReg` (R42, R222). -/
theorem statusLayout : Obligations.StatusLayout := by
  refine ⟨fun s => ⟨statusReg s, rfl, statusReg_tileValid s, ?busy, ?errAny, statusReg_reserved_3 s,
    readLastCode_eq s, statusReg_recLen s, statusReg_recNonhex s, statusReg_reserved_31_15 s⟩,
    fun p => congrArg some (statusReg_resetWith p)⟩
  case busy => rw [statusReg_busy, busy_iff]
  case errAny => rw [statusReg_errAny, errAny_iff]

/-- Settles O19: every register but `RESULT` widens its element (R43, R44). -/
theorem otherRegisterLayouts : Obligations.OtherRegisterLayouts := fun s =>
  ⟨⟨_, rfl, setWidth_layout s.errstat (by decide)⟩, rfl,
    ⟨_, rfl, setWidth_layout s.canvasW (by decide)⟩,
    ⟨_, rfl, setWidth_layout s.canvasH (by decide)⟩,
    ⟨_, rfl, setWidth_layout s.dpiX (by decide)⟩, ⟨_, rfl, setWidth_layout s.dpiY (by decide)⟩⟩

/-- Settles O20: the reset state holds R48's values by definition; its canvas is empty, so no pixel
exists. -/
theorem resetValues : Obligations.ResetValues := by
  refine ⟨?_, rfl⟩
  rintro p _ rfl
  exact ⟨rfl, rfl, rfl, fun _ => rfl, fun _ => rfl, rfl, rfl, hasPixel_resetWith p, rfl, rfl, rfl,
    rfl, rfl, rfl⟩

end

section
/-! The framebuffer by linear address (spec/20_memory.md rule R61). -/

namespace Sys2Proof.Machine

/-- `memRead` is the store's read at the linear address itself. -/
theorem memRead_eq_read (s : State) (a : Nat) : memRead s a = Memory.read a s.fb := by
  rw [memRead, fbRead, linearAddr_divMod]

/-- `memWrite` is the store's write at the linear address itself. -/
theorem memWrite_fb (a : Nat) (v : Rgb) (s : State) :
    (memWrite a v s).fb = Memory.write a v s.fb := by
  rw [memWrite, fbWrite_fb, linearAddr_divMod]

theorem memRead_memWrite (s : State) (a b : Nat) (v : Rgb) :
    memRead (memWrite a v s) b = if b = a then .defined v else memRead s b := by
  rw [memRead_eq_read, memWrite_fb, Memory.read_write, memRead_eq_read]

theorem memRead_linearAddr (s : State) (x y : Nat) :
    memRead s (linearAddr s.canvasW x y) = fbRead s x y := memRead_eq_read s _

/-- Every address below the pixel count is the address of an existing pixel. -/
theorem hasPixel_of_lt_pixelCount {s : State} {a : Nat} (ha : a < s.pixelCount) :
    s.hasPixel (a % s.canvasW.toNat) (a / s.canvasW.toNat) = true := by
  rw [State.pixelCount] at ha
  have hw : 0 < s.canvasW.toNat := Nat.pos_of_mul_pos_right (Nat.zero_lt_of_lt ha)
  exact (hasPixel_iff s _ _).2 ⟨Nat.mod_lt a hw, Nat.div_lt_of_lt_mul ha⟩

end Sys2Proof.Machine
end

section
open Sys2Proof.Machine

/-- Settles O32: a linear address below the pixel count and an existing pixel's coordinates determine
each other, so reads and writes by address are the store's own (R61). -/
theorem linearAddressReadsLastWrite : Obligations.LinearAddressReadsLastWrite := by
  intro s
  constructor
  · intro x y hxy
    obtain ⟨hx, hy⟩ := (hasPixel_iff s x y).1 hxy
    exact ⟨linearAddr_lt hx hy, memRead_linearAddr s x y⟩
  · intro a b v ha _
    exact ⟨hasPixel_of_lt_pixelCount ha, rfl, rfl, memRead_memWrite s a b v⟩

end

section
/-! The opcode map from the word's side (spec/30_encoding.md rules R86, R87 and R89): which words a row
matches by their opcode, and what the decoder answers for a word that no row matches. -/

namespace Sys2Proof

theorem accepts_iff {r : OpcodeRow} {w : CmdWord} :
    r.accepts w = true ↔ w &&& r.mask = r.matchBits := by
  rw [OpcodeRow.accepts, beq_iff_eq]

/-- A row that matches a word has the word's opcode (R89). -/
theorem opcodeOf_of_match {r : OpcodeRow} (hr : r ∈ opcodeTable) {w : CmdWord}
    (h : w &&& r.mask = r.matchBits) : opcodeOf w = opcodeOf r.matchBits :=
  accepts_opcode hr (accepts_iff.2 h)

/-- The opcode byte leaves one row that could match, so two rows never match one word (R89). -/
theorem row_unique {r r' : OpcodeRow} (hr : r ∈ opcodeTable) (hr' : r' ∈ opcodeTable) {w : CmdWord}
    (hop : opcodeOf w = opcodeOf r.matchBits) (h' : w &&& r'.mask = r'.matchBits) : r = r' :=
  row_of_opcode r hr r' hr' (hop.symm.trans (opcodeOf_of_match hr' h'))

/-- A word that the row of its opcode does not match is matched by no row (R86). -/
theorem no_row_of_opcode {r : OpcodeRow} (hr : r ∈ opcodeTable) {w : CmdWord}
    (hop : opcodeOf w = opcodeOf r.matchBits) (h : w &&& r.mask ≠ r.matchBits) :
    ∀ r' ∈ opcodeTable, w &&& r'.mask ≠ r'.matchBits := by
  intro r' hr' h'
  obtain rfl := row_unique hr hr' hop h'
  exact h h'

/-- The opcodes of rule R85 stand between the four ranges that rule R87 leaves unassigned. -/
theorem opcode_ranges : ∀ r ∈ opcodeTable,
    opcodeOf r.matchBits < 0x05#8 ∨
      (0x0F#8 < opcodeOf r.matchBits ∧ opcodeOf r.matchBits < 0x16#8) ∨
      (0x1F#8 < opcodeOf r.matchBits ∧ opcodeOf r.matchBits < 0x22#8) ∨
      (0x2F#8 < opcodeOf r.matchBits ∧ opcodeOf r.matchBits < 0x31#8) := by decide

theorem decode_of_no_row {w : CmdWord} (h : ∀ r ∈ opcodeTable, w &&& r.mask ≠ r.matchBits) :
    decode w = .error (rejectReason w) := by
  have hf : opcodeTable.find? (fun r => r.accepts w) = none :=
    List.find?_eq_none.2 fun r hr ha => h r hr (accepts_iff.1 ha)
  rw [decode, hf]

/-- Under an assigned opcode the reason is a reserved bit (R86). -/
theorem rejectReason_of_assigned {r : OpcodeRow} (hr : r ∈ opcodeTable) {w : CmdWord}
    (hop : opcodeOf w = opcodeOf r.matchBits) : rejectReason w = .reservedBits (opcodeOf w) := by
  have hany : opcodeTable.any (fun r => opcodeOf r.matchBits == opcodeOf w) = true :=
    List.any_eq_true.2 ⟨r, hr, beq_iff_eq.2 hop.symm⟩
  rw [rejectReason, if_pos hany]

end Sys2Proof

namespace Sys2Proof.Machine

/-- The sequencer's step on a word that is no command (R87). -/
theorem step_of_rejected {s : State} {w : CmdWord} {r : Reject} (hc : s.cmdReg = some w)
    (hd : decode w = .error r) (hs : s.schedule = []) :
    step s = .next { s with errstat := s.errstat ||| 0b000001, lastCode := 7, cmdReg := none } := by
  rw [step_unscheduled hs, sequencerTurn_busy hc, wordEffect_of_error hd]
  rfl

/-- A scheduled turn of the sequencer is made without that place in the schedule (R217). -/
theorem step_sequencer (s : State) (rest : List Event) :
    step { s with schedule := .sequencer :: rest } = sequencerTurn { s with schedule := rest } :=
  step_scheduled (s := { s with schedule := .sequencer :: rest }) rfl

/-- The sequencer's turn on a word that is a command (R90). -/
theorem sequencerTurn_of_decoded {s : State} {w : CmdWord} {i : Instr} (hc : s.cmdReg = some w)
    (hd : decode w = .ok i) : sequencerTurn s = .next { effect i s with cmdReg := none } := by
  rw [sequencerTurn_busy hc, wordEffect_of_ok hd]

/-- No command reads or writes the schedule. -/
theorem effect_withSchedule (i : Instr) (s : State) (rest : List Event) :
    effect i { s with schedule := rest } = { effect i s with schedule := rest } := by
  obtain ⟨hcmd, -, -, hobs⟩ := effect_keeps_agents i s
  calc effect i (withAgents s.cmdReg rest s.observed s)
      = withAgents s.cmdReg rest s.observed (effect i s) := effect_withAgents _ _ _ i s
    _ = { effect i s with schedule := rest } := by rw [← hcmd, ← hobs]; rfl

end Sys2Proof.Machine
end

section
open Sys2Proof Sys2Proof.Machine

/-- Settles O3: the decoder answers the row that matches, and the opcode byte tells the rows apart
(R89). -/
theorem decodeFollowsOpcodeMap : Obligations.DecodeFollowsOpcodeMap := fun _ =>
  ⟨fun _ hr h => decode_of_accepts hr (accepts_iff.2 h),
    fun h => ⟨_, decode_of_no_row h⟩,
    fun _ hr _ hr' h h' => row_unique hr hr' (opcodeOf_of_match hr h) h'⟩

/-- Settles O4: the only row with the word's opcode does not match, so none does. -/
theorem reservedBitExecutesAsIllegal : Obligations.ReservedBitExecutesAsIllegal := by
  intro s w r hr hop hne hs hc
  have hd : decode w = .error (.reservedBits (opcodeOf w)) := by
    rw [decode_of_no_row (no_row_of_opcode hr hop hne), rejectReason_of_assigned hr hop]
  exact ⟨hd, step_of_rejected hc hd hs⟩

/-- Settles O5: a matching row would have the word's opcode, which lies in none of the row opcodes'
ranges; a word without a row is rejected, whatever its opcode. -/
theorem illegalWordChangesNothingElse : Obligations.IllegalWordChangesNothingElse := by
  constructor
  · intro w unassigned r hr h
    have assigned := opcode_ranges r hr
    rw [← opcodeOf_of_match hr h] at assigned
    bv_omega
  · intro s w h hs hc
    exact step_of_rejected hc (decode_of_no_row h) hs

/-- Settles O8: the step is the sequencer's turn; when it is scheduled, the command does not see the
schedule it runs under. -/
theorem stepExecutesPendingCommand : Obligations.StepExecutesPendingCommand := by
  refine ⟨?decoded, fun s w r hc hd hs => step_of_rejected hc hd hs⟩
  case decoded =>
    intro s w i hc hd
    refine ⟨effect i s, exec_eq_effect i s, ?unscheduled, ?scheduled⟩
    case unscheduled =>
      intro hs
      rw [step_unscheduled hs, sequencerTurn_of_decoded hc hd]
    case scheduled =>
      intro rest
      calc step { s with schedule := .sequencer :: rest }
          = sequencerTurn { s with schedule := rest } := step_sequencer s rest
        _ = .next { effect i { s with schedule := rest } with cmdReg := none } :=
            sequencerTurn_of_decoded hc hd
        _ = .next { effect i s with cmdReg := none, schedule := rest } := by
            rw [effect_withSchedule]

end

section
/-! The tile unpacker's commands (spec/40_tile_decoder.md rules R100 to R111): their words, the effect of
REC_CHAR and REC_END in the statements' terms, and what a whole record leaves in the assembler. -/

namespace Sys2Proof

/-! ### Words (R83, R85) -/

/-- The word of a command with one field at bit 0: opcode, reserved zeros, field. -/
theorem place_opcode_field {m n : Nat} (op : BitVec 8) (v : BitVec n) (h : 8 + m + n = 64) :
    place 56 op ||| place 0 v = (op ++ 0#m ++ v).cast h := by
  apply eq_append_of_place
  rw [place_append, place_zeros, BitVec.or_zero, show n + m = 56 by omega]

/-- A command whose row accepts its word decodes to itself once its fields read back (R89). -/
theorem decode_encode_of_rowMatch {i : Instr} (hrow : Laws.RowMatch.Statement i)
    (hfields : readFields i.mnemonic (encode i) = i) : decode (encode i) = .ok i := by
  obtain ⟨r, hr, hm, ha⟩ := hrow
  rw [decode_of_accepts hr ha, hm, hfields]

theorem decode_encode_recBegin : decode (encode .recBegin) = .ok .recBegin :=
  decode_encode_of_rowMatch Laws.RowMatch.recBegin rfl

theorem decode_encode_recEnd : decode (encode .recEnd) = .ok .recEnd :=
  decode_encode_of_rowMatch Laws.RowMatch.recEnd rfl

theorem decode_encode_recChar (ch : CodeUnit) : decode (encode (.recChar ch)) = .ok (.recChar ch) := by
  refine decode_encode_of_rowMatch (Laws.RowMatch.recChar ch) (congrArg Instr.recChar ?_)
  rw [encode, BitVec.extractLsb'_or, extract_place_apart _ _ _ _ (by omega) (by omega),
    extract_place_same _ _ (by omega), BitVec.zero_or]

end Sys2Proof

namespace Sys2Proof.Machine

/-! ### REC_CHAR (R101) -/

theorem isStrip_eq_false_iff (ch : CodeUnit) : isStrip ch = false ↔ ch ≠ 0x20 ∧ ch ≠ 0x0D := by
  rw [Bool.eq_false_iff, ne_eq, isStrip_iff, not_or]

/-- The saturating count (R24), in the width of `REC_LEN`. -/
theorem satSucc_eq (n : BitVec 6) : satSucc n = if n = 63 then 63 else n + 1 := by
  revert n; decide

theorem finish_ok_of_lastCode {s : State} (h : s.lastCode = 0) : finish .ok s = s := by
  rw [finish, show ResultCode.ok.bits = s.lastCode from h.symm]

/-! ### REC_END (R103, R106) -/

theorem effect_recEnd_badlen {s : State} (h : s.recLen ≠ 32) :
    effect .recEnd s =
      { s with tileValid := false, recLen := 0, recNonhex := false, lastCode := 1 } := by
  have hc : recordCode s = .recBadlen := if_pos h
  rw [effect_recEnd_invalid (by rw [hc]; decide), hc]
  rfl

theorem effect_recEnd_nonhex {s : State} (h : s.recLen = 32) (hn : s.recNonhex = true) :
    effect .recEnd s =
      { s with tileValid := false, recLen := 0, recNonhex := false, lastCode := 2 } := by
  have hc : recordCode s = .recNonhex := by simp [recordCode, h, hn]
  rw [effect_recEnd_invalid (by rw [hc]; decide), hc]
  rfl

theorem effect_recEnd_unpack {s : State} (h : s.recLen = 32) (hn : s.recNonhex = false) :
    effect .recEnd s =
      { s with
        tile := unpackTile s.recNib, tileValid := true
        recLen := 0, recNonhex := false, lastCode := 0 } := by
  have hc : recordCode s = .ok := by simp [recordCode, h, hn]
  rw [effect_recEnd_valid hc]
  rfl

/-- Entry `8j + i` of the unpacked tile is row `j`, column `i` (R26). -/
theorem unpackTile_get (nib : Vector Nibble 32) (j i : Fin 8) :
    (unpackTile nib).get ⟨8 * j.val + i.val, by omega⟩ = planeShade nib j i := by
  have hrow : (8 * j.val + i.val) / 8 = j.val := by omega
  have hcol : (8 * j.val + i.val) % 8 = i.val := by omega
  simp only [unpackTile, Vector.get_eq_getElem, Vector.getElem_ofFn, hrow, hcol]

/-! ### The kept characters of a record -/

/-- What the stripping of rule R111 leaves of a record. -/
def keptChars (r : List CodeUnit) : List CodeUnit := r.filter fun ch => !isStrip ch

/-- The assembler after kept characters, one `pushKept` for each. -/
def pushAll (kept : List CodeUnit) (s : State) : State := kept.foldl (fun t ch => pushKept ch t) s

@[simp] theorem pushAll_nil (s : State) : pushAll [] s = s := rfl

@[simp] theorem pushAll_cons (ch : CodeUnit) (kept : List CodeUnit) (s : State) :
    pushAll (ch :: kept) s = pushAll kept (pushKept ch s) := rfl

theorem keptChars_eq_self {r : List CodeUnit} (h : ∀ ch ∈ r, isStrip ch = false) :
    keptChars r = r :=
  List.filter_eq_self.2 fun ch hch => by rw [h ch hch, Bool.not_false]

/-- Kept characters write the record assembler only. -/
theorem pushAll_frame (kept : List CodeUnit) (s : State) :
    ∃ len nonhex, pushAll kept s =
      { s with recNib := (pushAll kept s).recNib, recLen := len, recNonhex := nonhex } := by
  induction kept generalizing s with
  | nil => exact ⟨s.recLen, s.recNonhex, rfl⟩
  | cons ch kept ih =>
    obtain ⟨len, nonhex, h⟩ := ih (pushKept ch s)
    exact ⟨len, nonhex, h⟩

theorem pushAll_recLen (kept : List CodeUnit) (s : State) :
    (pushAll kept s).recLen.toNat = min (s.recLen.toNat + kept.length) 63 := by
  induction kept generalizing s with
  | nil => simp only [pushAll_nil, List.length_nil]; omega
  | cons ch kept ih =>
    rw [pushAll_cons, ih, pushKept_recLen, satSucc_toNat, List.length_cons]
    omega

theorem pushAll_recNonhex (kept : List CodeUnit) (s : State) :
    (pushAll kept s).recNonhex = (s.recNonhex || !kept.all isHex) := by
  induction kept generalizing s with
  | nil => simp
  | cons ch kept ih => simp [ih, Bool.or_assoc]

/-- A nibble below `REC_LEN` is not written again. -/
theorem pushAll_recNib_of_lt (kept : List CodeUnit) {s : State} {k : Fin 32}
    (h : k.val < s.recLen.toNat) : (pushAll kept s).recNib.get k = s.recNib.get k := by
  induction kept generalizing s with
  | nil => rfl
  | cons ch kept ih =>
    have hnext : k.val < (pushKept ch s).recLen.toNat := by
      rw [pushKept_recLen, satSucc_toNat]; omega
    rw [pushAll_cons, ih hnext, pushKept_recNib, storeNibble_get, if_neg (by omega)]

/-- The nibble that a kept character of the record leaves at its position. -/
theorem pushAll_recNib_of_ge {kept : List CodeUnit} {s : State} {k : Fin 32}
    (lo : s.recLen.toNat ≤ k.val) (hi : k.val < s.recLen.toNat + kept.length) :
    (pushAll kept s).recNib.get k = hexval (kept.getD (k.val - s.recLen.toNat) 0) := by
  induction kept generalizing s with
  | nil => rw [List.length_nil] at hi; omega
  | cons ch kept ih =>
    have hlen : (pushKept ch s).recLen.toNat = s.recLen.toNat + 1 := by
      rw [pushKept_recLen, satSucc_toNat]; omega
    rw [List.length_cons] at hi
    rw [pushAll_cons]
    rcases Nat.eq_or_lt_of_le lo with here | later
    · rw [pushAll_recNib_of_lt kept (by omega), pushKept_recNib, storeNibble_get, if_pos here.symm,
        here, Nat.sub_self, List.getD_cons_zero]
    · rw [ih (by omega) (by omega), hlen,
        show k.val - s.recLen.toNat = k.val - (s.recLen.toNat + 1) + 1 by omega,
        List.getD_cons_succ]

/-! ### A record sent by the host (R92, R108) -/

/-- The block after REC_BEGIN and a record's characters. -/
def assembled (r : List CodeUnit) (s : State) : State :=
  pushAll (keptChars r) (effect .recBegin s)

theorem hostExecAll_cons (i : Instr) (is : List Instr) (s : State) :
    hostExecAll (i :: is) s = hostExecAll is (hostExec i s) := rfl

/-- Once `LAST_CODE` is 0, a block differs after characters only by the kept ones. -/
theorem hostExecAll_recChars (r : List CodeUnit) {s : State} (hc : s.cmdReg = none)
    (hl : s.lastCode = 0) : hostExecAll (r.map .recChar) s = pushAll (keptChars r) s := by
  induction r generalizing s with
  | nil => rfl
  | cons ch r ih =>
    rw [List.map_cons, hostExecAll_cons, hostExec_eq_effect (decode_encode_recChar ch) hc]
    cases h : isStrip ch with
    | true =>
      rw [effect_recChar_strip h, finish_ok_of_lastCode hl, ih hc hl, keptChars, keptChars,
        List.filter_cons_of_neg (by simp [h])]
    | false =>
      rw [effect_recChar_kept h, finish_ok_of_lastCode (s := pushKept ch s) hl,
        ih (s := pushKept ch s) hc hl, keptChars, keptChars, List.filter_cons_of_pos (by simp [h]),
        pushAll_cons]

theorem hostExecAll_recBegin_recChars (r : List CodeUnit) {s : State} (hc : s.cmdReg = none) :
    hostExecAll (.recBegin :: r.map .recChar) s = assembled r s := by
  rw [hostExecAll_cons, hostExec_eq_effect decode_encode_recBegin hc]
  exact hostExecAll_recChars r hc rfl

/-- A record changes nothing but the record assembler and `LAST_CODE` before its REC_END. -/
theorem assembled_frame (r : List CodeUnit) (s : State) :
    ∃ len nonhex, assembled r s =
      { s with
        recNib := (assembled r s).recNib, recLen := len, recNonhex := nonhex, lastCode := 0 } :=
  pushAll_frame (keptChars r) (effect .recBegin s)

theorem assembled_recLen (r : List CodeUnit) (s : State) :
    (assembled r s).recLen.toNat = min (keptChars r).length 63 := by
  rw [assembled, pushAll_recLen, effect_recBegin]
  simp

theorem assembled_recLen_eq_iff (r : List CodeUnit) (s : State) :
    (assembled r s).recLen = 32 ↔ (keptChars r).length = 32 := by
  rw [← BitVec.toNat_inj, assembled_recLen, show (32 : BitVec 6).toNat = 32 from rfl]
  omega

theorem assembled_recNonhex (r : List CodeUnit) (s : State) :
    (assembled r s).recNonhex = !(keptChars r).all isHex := by
  rw [assembled, pushAll_recNonhex, effect_recBegin]
  simp

theorem assembled_recNib {r : List CodeUnit} (s : State) {k : Fin 32}
    (h : k.val < (keptChars r).length) :
    (assembled r s).recNib.get k = hexval ((keptChars r).getD k.val 0) := by
  have hzero : (effect .recBegin s).recLen.toNat = 0 := rfl
  rw [assembled, pushAll_recNib_of_ge (by omega) (by omega), hzero, Nat.sub_zero]

theorem hostRecord_eq (r : List CodeUnit) {s : State} (hc : s.cmdReg = none) :
    hostRecord r s =
      ((effect .recEnd (assembled r s)).lastCode, effect .recEnd (assembled r s)) := by
  have idle : (assembled r s).cmdReg = none := by
    obtain ⟨len, nonhex, h⟩ := assembled_frame r s
    rw [h]
    exact hc
  have run : hostExecAll (recordCommands r) s = effect .recEnd (assembled r s) := by
    rw [recordCommands, ← List.cons_append, hostExecAll_append, hostExecAll_recBegin_recChars r hc]
    exact hostExec_eq_effect decode_encode_recEnd idle
  rw [hostRecord, run, readLastCode_eq]

end Sys2Proof.Machine

namespace Sys2Proof.Safety

open Sys2Proof.Machine

/-! ### The source's decoder (R111) -/

/-- Steps 2 and 3 of the source's decoder on 32 hex digits. -/
def sourceTile (kept : List CodeUnit) : Vector Shade 64 :=
  Vector.ofFn fun n : Fin 64 => BitVec.ofNat 2 (sourceShade kept (n.val / 8) (n.val % 8))

theorem sourceDecode_badlen {r : List CodeUnit} (h : (keptChars r).length ≠ 32) :
    sourceDecode r = none := if_pos h

theorem sourceDecode_nonhex {r : List CodeUnit} (h : (keptChars r).length = 32)
    (hn : (keptChars r).all isHex = false) : sourceDecode r = none :=
  (if_neg (not_not_intro h)).trans (if_neg (Bool.eq_false_iff.1 hn))

theorem sourceDecode_valid {r : List CodeUnit} (h : (keptChars r).length = 32)
    (hn : (keptChars r).all isHex = true) : sourceDecode r = some (sourceTile (keptChars r)) :=
  (if_neg (not_not_intro h)).trans (if_pos hn)

variable {r : List CodeUnit} (s : State) (h : (keptChars r).length = 32)
include h

theorem recordByte_assembled (k : Fin 16) :
    (recordByte (assembled r s).recNib k).toNat = sourceByte (keptChars r) k.val := by
  rw [recordByte_toNat, assembled_recNib s (by dsimp only; omega),
    assembled_recNib s (by dsimp only; omega), sourceByte]

theorem planeShade_assembled (j i : Fin 8) :
    planeShade (assembled r s).recNib j i =
      BitVec.ofNat 2 (sourceShade (keptChars r) j.val i.val) := by
  apply BitVec.eq_of_toNat_eq
  rw [planeShade_toNat, recordByte_assembled s h, recordByte_assembled s h, BitVec.toNat_ofNat,
    sourceShade]
  dsimp only
  omega

/-- The block unpacks 32 kept characters as the source does. -/
theorem unpackTile_assembled :
    unpackTile (assembled r s).recNib = sourceTile (keptChars r) :=
  congrArg Vector.ofFn <| funext fun _ => planeShade_assembled s h _ _

end Sys2Proof.Safety
end

section
open Sys2Proof Sys2Proof.Machine Sys2Proof.Safety

/-- Settles O25: the effect of REC_BEGIN (R100). -/
theorem recBeginEmptiesAssembler : Obligations.RecBeginEmptiesAssembler :=
  ⟨by decide, exec_eq_effect .recBegin⟩

/-- Settles O26: the two cases of REC_CHAR; `REC_LEN` counts by `satSucc`, and `storeNibble` writes
the one nibble (R101). -/
theorem recCharKeepsOrDrops : Obligations.RecCharKeepsOrDrops := by
  refine fun ch => ⟨place_opcode_field 0x02#8 ch rfl, fun s => ⟨?dropped, ?kept⟩⟩
  case dropped =>
    intro h
    rw [exec_eq_effect, effect_recChar_strip ((isStrip_iff ch).2 h)]
    rfl
  case kept =>
    intro hsp hcr
    refine ⟨storeNibble s.recNib s.recLen (hexval ch), ?_, storeNibble_get _ _ _⟩
    rw [exec_eq_effect, effect_recChar_kept ((isStrip_eq_false_iff ch).2 ⟨hsp, hcr⟩), ← satSucc_eq]
    rfl

/-- Settles O27: kept characters count up to 63, which is not the length of a record (R102). -/
theorem longRecordSaturates : Obligations.LongRecordSaturates := by
  intro s cs hc hkept hlong
  rw [hostExecAll_recBegin_recChars cs hc]
  have hlen : (assembled cs s).recLen = 63 := by
    apply BitVec.eq_of_toNat_eq
    rw [assembled_recLen, keptChars_eq_self hkept, Nat.min_eq_right hlong]
    rfl
  refine ⟨hlen, ?_⟩
  rw [exec_eq_effect, effect_recEnd_badlen (by rw [hlen]; decide)]

/-- Settles O28: the three cases of REC_END; each shade is `planeShade` of two record bytes (R103,
R106). -/
theorem recEndDecodesOrRefuses : Obligations.RecEndDecodesOrRefuses := by
  refine ⟨by decide, fun s => ⟨?badlen, ?nonhex, ?valid⟩⟩
  case badlen =>
    intro h
    rw [exec_eq_effect, effect_recEnd_badlen h]
  case nonhex =>
    intro h hn
    rw [exec_eq_effect, effect_recEnd_nonhex h hn]
  case valid =>
    intro h hn
    refine ⟨unpackTile s.recNib, by rw [exec_eq_effect, effect_recEnd_unpack h hn], fun j i => ?_⟩
    rw [unpackTile_get, planeShade_toNat, recordByte_toNat, recordByte_toNat]

/-- Settles O30: REC_END's three cases are the source decoder's, since the assembler holds the count,
the digit test and the nibbles of the kept characters (R111). -/
theorem recordRefinesSourceDecoder : Obligations.RecordRefinesSourceDecoder := by
  intro s r hc
  refine ⟨(assembled r s).recNib, ?_⟩
  obtain ⟨len, nonhex, hframe⟩ := assembled_frame r s
  rw [hostRecord_eq r hc]
  by_cases hlen : (keptChars r).length = 32
  · have hl := (assembled_recLen_eq_iff r s).2 hlen
    have hn := assembled_recNonhex r s
    cases hall : (keptChars r).all isHex with
    | true =>
      rw [sourceDecode_valid hlen hall, effect_recEnd_unpack hl (by rw [hn, hall]; rfl),
        unpackTile_assembled s hlen, hframe]
    | false =>
      rw [sourceDecode_nonhex hlen hall, effect_recEnd_nonhex hl (by rw [hn, hall]; rfl), hframe]
      exact ⟨2, .inr rfl, rfl⟩
  · rw [sourceDecode_badlen hlen,
      effect_recEnd_badlen (mt (assembled_recLen_eq_iff r s).1 hlen), hframe]
    exact ⟨1, .inl rfl, rfl⟩

/-- Settles O31: the two cases of RDSHADE (R110). -/
theorem rdshadeReadsTileEntry : Obligations.RdshadeReadsTileEntry := by
  refine fun idx => ⟨place_opcode_field 0x04#8 idx rfl, fun s => ⟨?valid, ?invalid⟩⟩
  case valid =>
    intro h
    rw [exec_eq_effect, effect_rdshade_valid h]
    rfl
  case invalid =>
    intro h
    rw [exec_eq_effect, effect_rdshade_invalid h]
    rfl

end

section
/-! The canvas compositor's commands (spec/41_canvas_compositor.md rules R130 to R152): their words,
each command's effect by the case its checks decide, and what PAINT and REPLACE leave at each
pixel. -/

namespace Sys2Proof

/-! ### Words (R83, R85) -/

/-- The word of a command with two fields at the bottom: opcode, reserved zeros, fields. -/
theorem place_opcode_two_fields {m n k : Nat} (op : BitVec 8) (a : BitVec n) (b : BitVec k)
    (h : 8 + m + n + k = 64) :
    place 56 op ||| place k a ||| place 0 b = (op ++ 0#m ++ a ++ b).cast h := by
  apply eq_append_of_place
  rw [place_append, place_append, place_zeros, BitVec.or_zero, show k + n + m = 56 by omega]

/-- The two fields of such a word read back. -/
theorem extract_two_fields {n k : Nat} (op : BitVec 8) (a : BitVec n) (b : BitVec k)
    (h : k + n ≤ 56) :
    (place 56 op ||| place k a ||| place 0 b).extractLsb' k n = a ∧
      (place 56 op ||| place k a ||| place 0 b).extractLsb' 0 k = b := by
  simp only [BitVec.extractLsb'_or]
  constructor
  · rw [extract_place_apart 56 _ _ _ (by omega) (by omega), extract_place_same _ _ (by omega),
      extract_place_apart 0 _ _ _ (by omega) (by omega), BitVec.zero_or, BitVec.or_zero]
  · rw [extract_place_apart 56 _ _ _ (by omega) (by omega),
      extract_place_apart k _ _ _ (by omega) (by omega), extract_place_same _ _ (by omega),
      BitVec.zero_or, BitVec.zero_or]

theorem encode_paint (bank : Bank) (col row : Dim) (sx sy : Scale) :
    encode (.paint bank col row sx sy) = 0x12#8 ++ 0#7 ++ bank ++ col ++ row ++ sx ++ sy := by
  apply eq_append_of_place (h := rfl)
  simp only [place_append, place_zeros, BitVec.or_zero]
  rfl

theorem decode_encode_replace (old new : Rgb) :
    decode (encode (.replace old new)) = .ok (.replace old new) := by
  obtain ⟨hold, hnew⟩ := extract_two_fields 0x13#8 old new (by omega)
  exact decode_encode_of_rowMatch (Laws.RowMatch.replace old new)
    (congrArg₂ Instr.replace hold hnew)

end Sys2Proof

namespace Sys2Proof.Machine

/-! ### ALLOC (R131) -/

section
variable {w h : Dim} {s : State}

theorem effect_alloc_baddim (big : s.params.fbMaxPixels < w.toNat * h.toNat) :
    effect (.alloc w h) s = raise .baddim s := by
  simpa [big, Nat.not_le.2 big] using effect_alloc_cases w h s

theorem effect_alloc_same (fits : w.toNat * h.toNat ≤ s.params.fbMaxPixels) (hw : w = s.canvasW)
    (hh : h = s.canvasH) : effect (.alloc w h) s = finish .ok s := by
  subst hw hh
  simpa [fits, Nat.not_lt.2 fits] using effect_alloc_cases s.canvasW s.canvasH s

theorem effect_alloc_new (fits : w.toNat * h.toNat ≤ s.params.fbMaxPixels)
    (hd : ¬(w = s.canvasW ∧ h = s.canvasH)) :
    effect (.alloc w h) s = finish .ok { s with canvasW := w, canvasH := h, fb := [] } := by
  rcases effect_alloc_cases w h s with ⟨big, _⟩ | ⟨_, hw, hh, _⟩ | ⟨_, _, e⟩
  · exact absurd fits (Nat.not_le.2 big)
  · exact absurd ⟨hw, hh⟩ hd
  · exact e

end

/-! ### RDPIX (R151) -/

theorem hasPixel_eq_false_iff (s : State) (x y : Nat) :
    s.hasPixel x y = false ↔ s.canvasW.toNat ≤ x ∨ s.canvasH.toNat ≤ y := by
  rw [Bool.eq_false_iff, ne_eq, hasPixel_iff]
  omega

theorem effect_rdpix_outside {x y : Dim} {s : State} (hp : s.hasPixel x.toNat y.toNat = false) :
    effect (.rdpix x y) s = raise .oob s := by
  simpa [hp] using effect_rdpix_cases x y s

theorem effect_rdpix_inside {x y : Dim} {s : State} (hp : s.hasPixel x.toNat y.toNat = true) :
    effect (.rdpix x y) s = finish .ok (latchPixel (fbRead s x.toNat y.toNat) s) := by
  simpa [hp] using effect_rdpix_cases x y s

/-! ### PAINT's checks (R134, R136) -/

section
variable {col row : Dim} {sx sy : Scale} {s : State}

theorem effect_paint_badarg (h : sx = 0 ∨ sy = 0) (b : Bank) :
    effect (.paint b col row sx sy) s = raise .badarg s := by
  rcases effect_paint_cases b col row sx sy s with ⟨_, e⟩ | ⟨hx, hy, _⟩ | ⟨hx, hy, _⟩ | ⟨hx, hy, _⟩
  · exact e
  all_goals exact (h.elim hx hy).elim

variable (hx : sx ≠ 0) (hy : sy ≠ 0)
include hx hy

/-- Everything PAINT can do once its scale is valid. -/
theorem effect_paint_scaled (b : Bank) (col row : Dim) (s : State) :
    (s.tileValid = false ∧ effect (.paint b col row sx sy) s = raise .notile s) ∨
      (s.tileValid = true ∧ rectInside col row sx sy s.canvasW s.canvasH = false ∧
        effect (.paint b col row sx sy) s = raise .oob s) ∨
      (s.tileValid = true ∧ rectInside col row sx sy s.canvasW s.canvasH = true ∧
        effect (.paint b col row sx sy) s = finish .ok (paintTile b col row sx sy s)) := by
  rcases effect_paint_cases b col row sx sy s with ⟨h, _⟩ | ⟨_, _, h⟩ | ⟨_, _, h⟩ | ⟨_, _, h⟩
  · exact (h.elim hx hy).elim
  · exact .inl h
  · exact .inr (.inl h)
  · exact .inr (.inr h)

theorem effect_paint_notile (hv : s.tileValid = false) (b : Bank) :
    effect (.paint b col row sx sy) s = raise .notile s := by
  simpa [hv] using effect_paint_scaled hx hy b col row s

theorem effect_paint_oob (hv : s.tileValid = true)
    (out : rectInside col row sx sy s.canvasW s.canvasH = false) (b : Bank) :
    effect (.paint b col row sx sy) s = raise .oob s := by
  simpa [hv, out] using effect_paint_scaled hx hy b col row s

theorem effect_paint_inside (hv : s.tileValid = true)
    (hin : rectInside col row sx sy s.canvasW s.canvasH = true) (b : Bank) :
    effect (.paint b col row sx sy) s = finish .ok (paintTile b col row sx sy s) := by
  simpa [hv, hin] using effect_paint_scaled hx hy b col row s

end

theorem rectInside_eq_false_iff (col row : Dim) (sx sy : Scale) (w h : Dim) :
    rectInside col row sx sy w h = false ↔
      w.toNat < col.toNat * 8 * sx.toNat + 8 * sx.toNat ∨
        h.toNat < row.toNat * 8 * sy.toNat + 8 * sy.toNat := by
  rw [Bool.eq_false_iff, ne_eq, rectInside_iff, not_and_or, Nat.not_le, Nat.not_le]

/-! ### PAINT's rectangle (R135) -/

/-- Along one axis, device coordinate `p` lies at offset `d` in the block of logical pixel `k`
exactly when it lies in the rectangle and `k` is its offset there divided by the scale. -/
theorem block_coordinate_iff (g n p : Nat) (k : Fin 8) :
    (∃ d < n, p = (g * 8 + k.val) * n + d) ↔
      g * 8 * n ≤ p ∧ p < g * 8 * n + 8 * n ∧ k.val = (p - g * 8 * n) / n := by
  have start : (g * 8 + k.val) * n = g * 8 * n + k.val * n := Nat.add_mul ..
  constructor
  · rintro ⟨d, hd, rfl⟩
    have hend := block_end_le g k n
    refine ⟨by omega, by omega, ?_⟩
    rw [start, Nat.add_assoc, Nat.add_sub_cancel_left, Nat.mul_comm, Nat.mul_add_div (by omega),
      Nat.div_eq_of_lt hd, Nat.add_zero]
  · rintro ⟨lo, hi, hk⟩
    have hn : 0 < n := by omega
    refine ⟨(p - g * 8 * n) % n, Nat.mod_lt _ hn, ?_⟩
    have hsplit := Nat.div_add_mod' (p - g * 8 * n) n
    rw [start, hk]
    omega

theorem exists_block {g n p : Nat} (lo : g * 8 * n ≤ p) (hi : p < g * 8 * n + 8 * n) :
    ∃ k : Fin 8, k.val = (p - g * 8 * n) / n :=
  ⟨⟨(p - g * 8 * n) / n, Nat.div_lt_of_lt_mul (by omega)⟩, rfl⟩

section
variable {s : State} {col row : Dim} {sx sy : Scale} {x y : Nat}
  (hin : rectInside col row sx sy s.canvasW s.canvasH = true)
include hin

/-- Which cell PAINT has at an existing pixel: the one of the logical pixel whose block the pixel
lies in. -/
theorem mem_paintCells_linearAddr (b : Bank) (hx : x < s.canvasW.toNat) (colour : Rgb) :
    (linearAddr s.canvasW x y, colour) ∈ paintCells b col row sx sy s ↔
      ∃ r c : Fin 8, (∃ dy < sy.toNat, y = (row.toNat * 8 + r.val) * sy.toNat + dy) ∧
        (∃ dx < sx.toNat, x = (col.toNat * 8 + c.val) * sx.toNat + dx) ∧
        colour = palEntry s.pal b (tileShade s.tile r c) := by
  rw [mem_paintCells]
  constructor
  · rintro ⟨r, c, dy, hdy, dx, hdx, e⟩
    obtain ⟨haddr, hcolour⟩ := Prod.mk.inj e
    have hend := block_end_le col.toNat c sx.toNat
    have hw := ((rectInside_iff ..).1 hin).1
    obtain ⟨ex, ey⟩ := (linearAddr_inj hx (by omega)).1 haddr
    exact ⟨r, c, ⟨dy, hdy, ey⟩, ⟨dx, hdx, ex⟩, hcolour⟩
  · rintro ⟨r, c, ⟨dy, hdy, rfl⟩, ⟨dx, hdx, rfl⟩, rfl⟩
    exact ⟨r, c, dy, hdy, dx, hdx, rfl⟩

variable (hwf : Memory.wf s.fb = true)
include hwf

theorem fbRead_paintTile (b : Bank) :
    fbRead (paintTile b col row sx sy s) x y =
      (Memory.read (linearAddr s.canvasW x y) (paintCells b col row sx sy s)).over
        (fbRead s x y) :=
  Memory.read_overlay (paintCells_wf hin) hwf _

theorem fbRead_paintTile_in_block (b : Bank) (hx : x < s.canvasW.toNat) {r c : Fin 8}
    (hr : ∃ dy < sy.toNat, y = (row.toNat * 8 + r.val) * sy.toNat + dy)
    (hc : ∃ dx < sx.toNat, x = (col.toNat * 8 + c.val) * sx.toNat + dx) :
    fbRead (paintTile b col row sx sy s) x y =
      .defined (palEntry s.pal b (tileShade s.tile r c)) := by
  have listed := (mem_paintCells_linearAddr hin b hx _).2 ⟨r, c, hr, hc, rfl⟩
  rw [fbRead_paintTile hin hwf, (Memory.mem_iff_read (paintCells_wf hin) _ _).1 listed, Pixel.over]

theorem fbRead_paintTile_outside (b : Bank) (hx : x < s.canvasW.toNat)
    (out : ¬(col.toNat * 8 * sx.toNat ≤ x ∧ x < col.toNat * 8 * sx.toNat + 8 * sx.toNat ∧
      row.toNat * 8 * sy.toNat ≤ y ∧ y < row.toNat * 8 * sy.toNat + 8 * sy.toNat)) :
    fbRead (paintTile b col row sx sy s) x y = fbRead s x y := by
  rw [fbRead_paintTile hin hwf]
  cases hread : Memory.read (linearAddr s.canvasW x y) (paintCells b col row sx sy s) with
  | undef => rfl
  | defined colour =>
    have listed := (Memory.mem_iff_read (paintCells_wf hin) _ _).2 hread
    obtain ⟨r, c, hr, hc, -⟩ := (mem_paintCells_linearAddr hin b hx _).1 listed
    obtain ⟨ylo, yhi, -⟩ := (block_coordinate_iff ..).1 hr
    obtain ⟨xlo, xhi, -⟩ := (block_coordinate_iff ..).1 hc
    exact absurd ⟨xlo, xhi, ylo, yhi⟩ out

end

/-! ### PAINT's loops (R134)

R134's four loops write the cells of `paintCells` in another order. -/

/-- Cells written one after another. -/
def Memory.writeAll (cells : List (Nat × Rgb)) (m : Memory) : Memory :=
  cells.foldl (fun m q => Memory.write q.1 q.2 m) m

theorem Memory.writeAll_cons (q : Nat × Rgb) (cells : List (Nat × Rgb)) (m : Memory) :
    Memory.writeAll (q :: cells) m = Memory.writeAll cells (Memory.write q.1 q.2 m) := rfl

theorem Memory.writeAll_wf (cells : List (Nat × Rgb)) {m : Memory} (h : Memory.wf m = true) :
    Memory.wf (Memory.writeAll cells m) = true := by
  induction cells generalizing m with
  | nil => exact h
  | cons q cells ih => exact ih (Memory.write_wf h)

theorem Memory.read_writeAll_unlisted {cells : List (Nat × Rgb)} {a : Nat}
    (h : ∀ q ∈ cells, a ≠ q.1) (m : Memory) :
    Memory.read a (Memory.writeAll cells m) = Memory.read a m := by
  induction cells generalizing m with
  | nil => rfl
  | cons q cells ih =>
    obtain ⟨hq, hcells⟩ := List.forall_mem_cons.1 h
    rw [Memory.writeAll_cons, ih hcells, Memory.read_write, if_neg hq]

/-- Cells that give an address one colour only leave it that colour. -/
theorem Memory.read_writeAll_listed {cells : List (Nat × Rgb)} {a : Nat} {c : Rgb}
    (hc : ∀ q ∈ cells, a = q.1 → q.2 = c) {m : Memory}
    (h : (a, c) ∈ cells ∨ Memory.read a m = .defined c) :
    Memory.read a (Memory.writeAll cells m) = .defined c := by
  induction cells generalizing m with
  | nil => exact h.resolve_left List.not_mem_nil
  | cons q cells ih =>
    obtain ⟨hq, hcells⟩ := List.forall_mem_cons.1 hc
    refine ih hcells ?_
    rw [Memory.read_write]
    by_cases ha : a = q.1
    · exact .inr (by rw [if_pos ha, hq ha])
    · rw [if_neg ha]
      exact h.imp_left fun hmem =>
        (List.mem_cons.1 hmem).resolve_left fun e => ha (congrArg Prod.fst e)

/-- Written in any order, the cells of a canonical store lie over the old store as it does. -/
theorem Memory.writeAll_eq_overlay {cells : List (Nat × Rgb)} {new old : Memory}
    (hn : Memory.wf new = true) (ho : Memory.wf old = true) (hmem : ∀ q, q ∈ cells ↔ q ∈ new) :
    Memory.writeAll cells old = Memory.overlay new old := by
  refine Memory.ext (Memory.writeAll_wf cells ho) (Memory.overlay_wf hn ho) fun a => ?_
  have listed : ∀ c, (a, c) ∈ cells ↔ Memory.read a new = .defined c := fun c =>
    (hmem _).trans (Memory.mem_iff_read hn a c)
  rw [Memory.read_overlay hn ho]
  cases hread : Memory.read a new with
  | undef =>
    refine Memory.read_writeAll_unlisted (fun q hq ha => ?_) old
    subst ha
    exact Pixel.noConfusion (hread.symm.trans ((listed q.2).1 hq))
  | defined c =>
    refine Memory.read_writeAll_listed (fun q hq ha => ?_) (.inl ((listed c).2 hread))
    subst ha
    exact Pixel.defined.inj (((listed q.2).1 hq).symm.trans hread)

/-- R134's writes in the order of its loops. -/
def paintLoopWrites (bank : Bank) (col row : Dim) (sx sy : Scale) (s : State) : List PixelWrite :=
  (List.finRange 8).flatMap fun r =>
    (List.finRange 8).flatMap fun c =>
      (List.range sy.toNat).flatMap fun dy =>
        (List.range sx.toNat).map fun dx =>
          tileWrite s.tile (s.pal.get bank.toFin) col row sx sy r c dy dx

theorem mem_paintLoopWrites {bank : Bank} {col row : Dim} {sx sy : Scale} {s : State}
    {q : PixelWrite} :
    q ∈ paintLoopWrites bank col row sx sy s ↔
      q ∈ tileWrites s.tile (s.pal.get bank.toFin) col row sx sy := by
  simp only [mem_tileWrites, paintLoopWrites, List.mem_flatMap, List.mem_map, List.mem_finRange,
    List.mem_range, true_and, eq_comm (a := q)]

/-- `FbWrite` for each of a list of pixel writes, in order. -/
def fbWriteAll (writes : List PixelWrite) (s : State) : State :=
  writes.foldl (fun u q => fbWrite q.x q.y q.rgb u) s

theorem fbWriteAll_eq (writes : List PixelWrite) (s : State) :
    fbWriteAll writes s =
      { s with
        fb := Memory.writeAll (writes.map fun q => (linearAddr s.canvasW q.x q.y, q.rgb))
          s.fb } := by
  induction writes generalizing s with
  | nil => rfl
  | cons q writes ih => exact ih (fbWrite q.x q.y q.rgb s)

/-- The blocks do not overlap, so the loops' order cannot be seen (R135, R66). -/
theorem fbWriteAll_paintLoopWrites {s : State} {b : Bank} {col row : Dim} {sx sy : Scale}
    (hin : rectInside col row sx sy s.canvasW s.canvasH = true) (hwf : Memory.wf s.fb = true) :
    fbWriteAll (paintLoopWrites b col row sx sy s) s = paintTile b col row sx sy s := by
  have same : ∀ q, (q ∈ (paintLoopWrites b col row sx sy s).map fun p =>
      (linearAddr s.canvasW p.x p.y, p.rgb)) ↔ q ∈ paintCells b col row sx sy s := fun q => by
    simp only [paintCells, List.mem_map, mem_paintLoopWrites]
  rw [fbWriteAll_eq, Memory.writeAll_eq_overlay (paintCells_wf hin) hwf same, paintTile]

/-! ### The empty canvas (R147) -/

theorem rectExtent_pos {scale : Scale} (h : scale ≠ 0) : 0 < rectExtent scale :=
  Nat.mul_pos (by decide) (Nat.pos_of_ne_zero fun e => h (BitVec.eq_of_toNat_eq e))

theorem rectInside_of_empty {w h : Dim} (empty : w = 0 ∨ h = 0) (col row : Dim) {sx sy : Scale}
    (hx : sx ≠ 0) (hy : sy ≠ 0) : rectInside col row sx sy w h = false := by
  have px := rectExtent_pos hx
  have py := rectExtent_pos hy
  rw [rectInside_eq_false_iff]
  rcases empty with rfl | rfl
  · exact .inl (Nat.lt_of_lt_of_le px (Nat.le_add_left ..))
  · exact .inr (Nat.lt_of_lt_of_le py (Nat.le_add_left ..))

theorem pixelCount_eq_zero {s : State} (h : s.canvasW = 0 ∨ s.canvasH = 0) : s.pixelCount = 0 := by
  rcases h with h | h <;> simp [State.pixelCount, h]

/-- A canvas without pixels stores none. -/
theorem fb_eq_nil {s : State} (h : s.pixelCount = 0) (hin : ∀ p ∈ s.fb, p.1 < s.pixelCount) :
    s.fb = [] :=
  List.eq_nil_iff_forall_not_mem.2 fun p hp => Nat.not_lt_zero p.1 (h ▸ hin p hp)

theorem hasPixel_of_pixelCount_zero {s : State} (h : s.pixelCount = 0) (x y : Nat) :
    s.hasPixel x y = false := by
  rw [hasPixel_eq_false_iff]
  rcases Nat.mul_eq_zero.1 h with h | h <;> omega

/-! ### REPLACE (R140, R142) -/

theorem fbRead_replace (old new : Rgb) (s : State) (x y : Nat) :
    fbRead (effect (.replace old new) s) x y = (fbRead s x y).replaced old new :=
  Memory.read_replace old new s.fb _

theorem Pixel.replaced_of_ne {old : Rgb} {p : Pixel} (h : p ≠ .defined old) (new : Rgb) :
    p.replaced old new = p := by
  cases p with
  | undef => rfl
  | defined c =>
    have hc : c ≠ old := fun e => h (congrArg Pixel.defined e)
    rw [Pixel.replaced, if_neg hc]

/-- Every REPLACE of a sequence acts on the pixel by itself, in issue order. -/
theorem fbRead_hostExecAll_replaces (l : List (Rgb × Rgb)) {s : State} (hc : s.cmdReg = none)
    (x y : Nat) :
    fbRead (hostExecAll (l.map fun p => .replace p.1 p.2) s) x y =
      l.foldl (fun q p => q.replaced p.1 p.2) (fbRead s x y) := by
  induction l generalizing s with
  | nil => rfl
  | cons p l ih =>
    rw [List.map_cons, hostExecAll_cons, hostExec_eq_effect (decode_encode_replace p.1 p.2) hc,
      ih (s := effect (.replace p.1 p.2) s) hc, fbRead_replace, List.foldl_cons]

theorem foldl_replaced_undef (l : List (Rgb × Rgb)) :
    l.foldl (fun q p => q.replaced p.1 p.2) Pixel.undef = .undef := by
  induction l with
  | nil => rfl
  | cons p l ih => exact ih

theorem foldl_replaced_defined (l : List (Rgb × Rgb)) (v : Rgb) :
    l.foldl (fun q p => q.replaced p.1 p.2) (Pixel.defined v) =
      .defined (l.foldl (fun v p => Safety.replaceColour p.1 p.2 v) v) := by
  induction l generalizing v with
  | nil => rfl
  | cons p l ih => exact ih _

end Sys2Proof.Machine
end

section
open Sys2Proof Sys2Proof.Machine

/-- Settles O33: the three cases of ALLOC; a brand-new buffer lists no pixel (R131, R132). -/
theorem allocReallocates : Obligations.AllocReallocates := by
  refine fun w h => ⟨place_opcode_two_fields 0x10#8 w h rfl, fun s => ⟨?baddim, ?same, ?new⟩⟩
  case baddim =>
    intro big
    rw [exec_eq_effect, effect_alloc_baddim big]
    rfl
  case same =>
    intro fits hw hh
    rw [exec_eq_effect, effect_alloc_same fits hw hh]
    rfl
  case new =>
    intro fits hd
    refine ⟨[], ?_, fun _ _ _ _ => rfl⟩
    rw [exec_eq_effect, effect_alloc_new fits hd]
    rfl

/-- Settles O34: the filled store lists every address below the pixel count (R133). -/
theorem fillSetsEveryPixel : Obligations.FillSetsEveryPixel := by
  refine fun c => ⟨place_opcode_field 0x11#8 c rfl, fun s =>
    ⟨Memory.filled s.pixelCount c, exec_eq_effect (.fill c) s, fun x y hx hy => ?_⟩⟩
  rw [Memory.read_filled]
  exact if_pos (linearAddr_lt hx hy)

/-- Settles O35: the pixel's offset in the rectangle divides into the logical pixel whose cell PAINT
lists there; outside the rectangle it lists none (R135). -/
theorem paintScalesTileIntoRectangle : Obligations.PaintScalesTileIntoRectangle := by
  intro s b col row sx sy hwf hsx hsy hv x0 y0 hw hh
  have hin := (rectInside_iff col row sx sy s.canvasW s.canvasH).2 ⟨hw, hh⟩
  refine ⟨(paintTile b col row sx sy s).fb, ?_, fun x y hx _ => ⟨?inside, ?outside⟩⟩
  · rw [exec_eq_effect, effect_paint_inside hsx hsy hv hin]
    rfl
  case inside =>
    intro xlo xhi ylo yhi
    obtain ⟨c, hc⟩ := exists_block xlo xhi
    obtain ⟨r, hr⟩ := exists_block ylo yhi
    exact ⟨r, c, hr, hc, fbRead_paintTile_in_block hin hwf b hx
      ((block_coordinate_iff ..).2 ⟨ylo, yhi, hr⟩) ((block_coordinate_iff ..).2 ⟨xlo, xhi, hc⟩)⟩
  case outside => exact fbRead_paintTile_outside hin hwf b hx

/-- Settles O36: PAINT's four cases; the loops write the same cells as the model's one pass (R134,
R136). -/
theorem paintFollowsItsPseudocode : Obligations.PaintFollowsItsPseudocode := by
  refine fun b col row sx sy => ⟨encode_paint b col row sx sy, fun s =>
    ⟨?badarg, ?notile, ?oob, ?inside⟩⟩
  case badarg =>
    intro h
    rw [exec_eq_effect, effect_paint_badarg h]
    rfl
  case notile =>
    intro hsx hsy hv
    rw [exec_eq_effect, effect_paint_notile hsx hsy hv]
    rfl
  case oob =>
    intro hsx hsy hv out
    rw [exec_eq_effect, effect_paint_oob hsx hsy hv ((rectInside_eq_false_iff ..).2 out)]
    rfl
  case inside =>
    intro hsx hsy hv hw hh hwf
    have hin := (rectInside_iff col row sx sy s.canvasW s.canvasH).2 ⟨hw, hh⟩
    rw [exec_eq_effect, effect_paint_inside hsx hsy hv hin, ← fbWriteAll_paintLoopWrites hin hwf]
    simp only [fbWriteAll, paintLoopWrites, List.foldl_flatMap, List.foldl_map]
    rfl

/-- Settles O37: the store after REPLACE reads each pixel's `Pixel.replaced` (R140). -/
theorem replaceRewritesMatchingPixels : Obligations.ReplaceRewritesMatchingPixels := by
  refine fun old new => ⟨place_opcode_two_fields 0x13#8 old new rfl, fun s =>
    ⟨Memory.replace old new s.fb, exec_eq_effect (.replace old new) s, fun x y _ _ => ?_⟩⟩
  have pixel : Memory.read (linearAddr s.canvasW x y) (Memory.replace old new s.fb) =
      (fbRead s x y).replaced old new := fbRead_replace old new s x y
  refine ⟨fun h => ?_, fun h => ?_⟩
  · rw [pixel, h, Pixel.replaced, if_pos rfl]
  · rw [pixel, Pixel.replaced_of_ne h]

/-- Settles O38: each REPLACE acts on the pixel by itself, a `Defined` one as on its
colour (R142). -/
theorem replacesCompose : Obligations.ReplacesCompose := by
  intro s l x y hc _ t
  have pixel : fbRead t x y = _ := fbRead_hostExecAll_replaces l hc x y
  refine ⟨fun v h => ?_, fun h => ?_⟩
  · rw [pixel, h, foldl_replaced_defined]
  · rw [pixel, h, foldl_replaced_undef]

/-- Settles O43: a canvas without pixels stores none, so FILL and REPLACE leave the empty store, and
no rectangle and no pixel lies inside it (R147). -/
theorem emptyCanvasCommands : Obligations.EmptyCanvasCommands := by
  intro s empty hstored
  have count := pixelCount_eq_zero empty
  have hfb := fb_eq_nil count hstored
  refine ⟨?fill, ?replace, ?paint, ?rdpix⟩
  case fill =>
    intro c
    rw [exec_eq_effect, effect_fill, count, show Memory.filled 0 c = s.fb from hfb.symm]
    rfl
  case replace =>
    intro old new
    have kept : Memory.replace old new s.fb = s.fb := by rw [hfb]; rfl
    rw [exec_eq_effect, effect_replace, kept]
    rfl
  case paint =>
    intro b col row sx sy hsx hsy hv
    rw [exec_eq_effect, effect_paint_oob hsx hsy hv (rectInside_of_empty empty col row hsx hsy)]
    rfl
  case rdpix =>
    intro x y
    rw [exec_eq_effect, effect_rdpix_outside (hasPixel_of_pixelCount_zero count _ _)]
    rfl

/-- Settles O46: the two cases of RDPIX, and `latchPixel` on each kind of pixel (R151). -/
theorem rdpixReadsPixel : Obligations.RdpixReadsPixel := by
  refine fun x y => ⟨place_opcode_two_fields 0x15#8 x y rfl, fun s => ⟨?outside, ?inside⟩⟩
  case outside =>
    intro h
    rw [exec_eq_effect, effect_rdpix_outside ((hasPixel_eq_false_iff s _ _).2 h)]
    rfl
  case inside =>
    intro hx hy
    rw [exec_eq_effect, effect_rdpix_inside ((hasPixel_iff s _ _).2 ⟨hx, hy⟩)]
    refine ⟨fun c h => ?_, fun h => ⟨Config.draw s.draws, s.draws + 1, ?_⟩⟩
    all_goals
      rw [h]
      rfl

/-- Settles O44: the effect of MATERIALIZE (R148). -/
theorem materializeLatchesDpi : Obligations.MaterializeLatchesDpi := fun dpiX dpiY =>
  ⟨place_opcode_two_fields 0x14#8 dpiX dpiY rfl, exec_eq_effect (.materialize dpiX dpiY)⟩

end

section
/-! The palette and control commands (spec/42_palette_and_control.md rules R170 to R176): the words of
SETPAL and RDPAL, and what SETPAL and CLRERR leave at each entry and each sticky bit. -/

namespace Sys2Proof

/-! ### Words (R83, R85) -/

theorem encode_setpal (bank : Bank) (idx : Shade) (c : Rgb) :
    encode (.setpal bank idx c) = 0x20#8 ++ 0#7 ++ bank ++ 0#14 ++ idx ++ 0#8 ++ c := by
  apply eq_append_of_place (h := rfl)
  simp only [place_append, place_zeros, BitVec.or_zero]
  rfl

theorem encode_rdpal (bank : Bank) (idx : Shade) :
    encode (.rdpal bank idx) = 0x21#8 ++ 0#7 ++ bank ++ 0#14 ++ idx ++ 0#32 := by
  apply eq_append_of_place (h := rfl)
  simp only [place_append, place_zeros, BitVec.or_zero]
  rfl

end Sys2Proof

namespace Sys2Proof.Machine

/-! ### SETPAL (R172) -/

/-- A field determines its index, so a write at one field's value shows at no other's. -/
theorem getElem_set_toNat {α : Type} {m n : Nat} (v : Vector α m) (k i : BitVec n) (x : α)
    (hk : k.toNat < m) (hi : i.toNat < m) :
    (v.set k.toNat x)[i.toNat] = if i = k then x else v[i.toNat] := by
  simp only [Vector.getElem_set, BitVec.toNat_inj, eq_comm (a := k)]

theorem paletteEntry_set (p : Palette) (idx i : Shade) (c : Rgb) :
    paletteEntry (p.set idx.toNat c idx.isLt) i = if i = idx then c else paletteEntry p i :=
  getElem_set_toNat p idx i c idx.isLt i.isLt

/-- SETPAL changes no bank but the addressed one. -/
theorem setPalEntry_get (pal : Vector Palette 2) (bank b : Bank) (idx : Shade) (c : Rgb) :
    (setPalEntry pal bank idx c).get b.toFin =
      if b = bank then (pal.get bank.toFin).set idx.toNat c idx.isLt else pal.get b.toFin :=
  getElem_set_toNat pal bank b _ bank.isLt b.isLt

theorem palEntry_setPalEntry (pal : Vector Palette 2) (bank b : Bank) (idx i : Shade) (c : Rgb) :
    palEntry (setPalEntry pal bank idx c) b i =
      if b = bank ∧ i = idx then c else palEntry pal b i := by
  rw [palEntry, setPalEntry_get]
  by_cases hb : b = bank
  · subst hb
    rw [if_pos rfl, paletteEntry_set]
    simp only [true_and, palEntry]
  · rw [if_neg hb, if_neg fun h => hb h.1, palEntry]

/-! ### CLRERR (R176) -/

theorem getLsbD_clear {n k : Nat} (e mask : BitVec n) (hk : k < n) :
    (e &&& ~~~mask).getLsbD k = (e.getLsbD k && !mask.getLsbD k) := by
  rw [BitVec.getLsbD_and, BitVec.getLsbD_not, decide_eq_true hk, Bool.true_and]

end Sys2Proof.Machine
end

section
open Sys2Proof Sys2Proof.Machine

/-- Settles O47: a bank and an index determine an entry, so SETPAL writes that entry alone (R172). -/
theorem setpalWritesOneEntry : Obligations.SetpalWritesOneEntry := fun bank idx c =>
  ⟨encode_setpal bank idx c, fun s => ⟨setPalEntry s.pal bank idx c,
    exec_eq_effect (.setpal bank idx c) s,
    fun b i => palEntry_setPalEntry s.pal bank b idx i c⟩⟩

/-- Settles O48: the entry widens into `RESULT` (R174). -/
theorem rdpalReadsEntry : Obligations.RdpalReadsEntry := fun bank idx =>
  ⟨encode_rdpal bank idx, fun s => ⟨(palEntry s.pal bank idx).setWidth 32,
    exec_eq_effect (.rdpal bank idx) s, setWidth_layout _ (by decide)⟩⟩

/-- Settles O50: CLRERR keeps the sticky bits outside its mask (R176). -/
theorem clrerrClearsMaskedBits : Obligations.ClrerrClearsMaskedBits := fun mask =>
  ⟨place_opcode_field 0x30#8 mask rfl, fun s => ⟨s.errstat &&& ~~~mask,
    exec_eq_effect (.clrerr mask) s, fun n => getLsbD_clear s.errstat mask n.isLt⟩⟩

/-- Settles O49: the effect of NOP (R170). -/
theorem nopWritesOnlyLastCode : Obligations.NopWritesOnlyLastCode :=
  ⟨by decide, exec_eq_effect .nop⟩

end

section
/-! The reference host's lines and passes (spec/43_host_pipeline.md rules R191 to R202): which lines of a
blob are candidates, what the host's passes do for valid and invalid records, and that what an
invalid record leaves in the tile unpacker reaches neither the canvas nor the read-out. -/

namespace Sys2Proof

theorem decode_encode_materialize (dpiX dpiY : Dim) :
    decode (encode (.materialize dpiX dpiY)) = .ok (.materialize dpiX dpiY) := by
  obtain ⟨hx, hy⟩ := extract_two_fields 0x14#8 dpiX dpiY (by omega)
  exact decode_encode_of_rowMatch (Laws.RowMatch.materialize dpiX dpiY)
    (congrArg₂ Instr.materialize hx hy)

theorem decode_encode_rdpix (x y : Dim) : decode (encode (.rdpix x y)) = .ok (.rdpix x y) := by
  obtain ⟨hx, hy⟩ := extract_two_fields 0x15#8 x y (by omega)
  exact decode_encode_of_rowMatch (Laws.RowMatch.rdpix x y) (congrArg₂ Instr.rdpix hx hy)

end Sys2Proof

namespace Sys2Proof.Machine

open Sys2Proof.Safety

/-! ### Lines (R191 to R193) -/

/-- The host's line splitting is the library's. -/
theorem splitLines_eq_splitOn (blob : List CodeUnit) : splitLines blob = blob.splitOn 0x0A := by
  induction blob with
  | nil => rfl
  | cons ch rest ih =>
    rw [splitLines, List.splitOn_cons_eq_if_modifyHead, ih]
    simp only [beq_iff_eq]
    cases hsplit : rest.splitOn 0x0A with
    | nil => exact absurd hsplit (List.splitOn_ne_nil _ _)
    | cons l ls => rfl

/-- No lines at all are joined to the blob of one empty line, which is no candidate. -/
theorem candidates_intercalate {lines : List (List CodeUnit)}
    (h : ∀ l ∈ lines, ∀ ch ∈ l, ch ≠ 0x0A) :
    candidates (List.intercalate [0x0A] lines) = lines.filter isCandidate := by
  cases lines with
  | nil => rfl
  | cons l ls =>
    rw [candidates, splitLines_eq_splitOn,
      List.splitOn_intercalate _ (fun l hl hmem => h l hl _ hmem rfl) (List.cons_ne_nil l ls)]

theorem isCommentLine_eq (l : List CodeUnit) :
    isCommentLine l = (l.head? == some 0x21 || l.head? == some 0x23 || l.head? == some 0x7B ||
      l.take 2 == [0x2F, 0x2F]) := by
  match l with
  | [] => rfl
  | [a] => simp [isCommentLine]
  | a :: b :: l => simp [isCommentLine]

theorem capture_congr {blob blob' : List CodeUnit} (h : candidates blob = candidates blob')
    (c : HostConfig) (s : State) : capture c blob s = capture c blob' s := by
  rw [capture, capture, h]

/-! ### The block apart from the tile unpacker -/

/-- `s` with what a record may write, the tile unpacker and `LAST_CODE`, emptied: two states with
equal images differ in nothing else. -/
def forgetRecord (s : State) : State :=
  { s with
    recNib := Vector.replicate 32 0, recLen := 0, recNonhex := false
    tile := Vector.replicate 64 0, tileValid := false, lastCode := 0 }

theorem snapshot_forgetRecord (s : State) : snapshot (forgetRecord s) = snapshot s := rfl

theorem snapshot_eq_of_forgetRecord_eq {s t : State} (h : forgetRecord s = forgetRecord t) :
    snapshot s = snapshot t := by
  rw [← snapshot_forgetRecord s, h, snapshot_forgetRecord t]

theorem idle_of_forgetRecord_eq {s t : State} (h : forgetRecord s = forgetRecord t)
    (hs : s.cmdReg = none) : t.cmdReg = none :=
  (congrArg State.cmdReg h).symm.trans hs

/-- A command that neither reads the tile unpacker nor `LAST_CODE`. -/
def ReadsNoRecord (i : Instr) : Prop :=
  ∀ s : State, forgetRecord (effect i s) = forgetRecord (effect i (forgetRecord s))

theorem readsNoRecord_materialize (dpiX dpiY : Dim) : ReadsNoRecord (.materialize dpiX dpiY) :=
  fun _ => rfl

theorem readsNoRecord_rdpix (x y : Dim) : ReadsNoRecord (.rdpix x y) := by
  intro s
  cases hp : s.hasPixel x.toNat y.toNat with
  | false => rw [effect_rdpix_outside hp, effect_rdpix_outside (s := forgetRecord s) hp]; rfl
  | true =>
    rw [effect_rdpix_inside hp, effect_rdpix_inside (s := forgetRecord s) hp,
      show fbRead (forgetRecord s) x.toNat y.toNat = fbRead s x.toNat y.toNat from rfl]
    cases fbRead s x.toNat y.toNat <;> rfl

theorem hostExec_forgetRecord {i : Instr} (hd : decode (encode i) = .ok i) (hi : ReadsNoRecord i)
    {s t : State} (hs : s.cmdReg = none) (h : forgetRecord s = forgetRecord t) :
    forgetRecord (hostExec i s) = forgetRecord (hostExec i t) := by
  rw [hostExec_eq_effect hd hs, hostExec_eq_effect hd (idle_of_forgetRecord_eq h hs), hi s, hi t, h]

/-- The host waits after every command, so the block is idle then (R190). -/
theorem hostExec_idle (i : Instr) (s : State) : (hostExec i s).cmdReg = none := by
  rcases issue_cases (encode i) s with ⟨_, e⟩ | ⟨v, hv, e⟩
  · rw [hostExec, e, settle_busy rfl]
  · rw [hostExec, e, settle_busy (s := { s with errstat := s.errstat ||| overrunBit }) hv]

/-! ### Read-out (R199) -/

theorem hostReadPixels_forgetRecord (ps : List (Nat × Nat)) {s t : State} (hs : s.cmdReg = none)
    (h : forgetRecord s = forgetRecord t) :
    (hostReadPixels ps s).1 = (hostReadPixels ps t).1 ∧
      forgetRecord (hostReadPixels ps s).2 = forgetRecord (hostReadPixels ps t).2 := by
  induction ps generalizing s t with
  | nil => exact ⟨rfl, h⟩
  | cons p ps ih =>
    have read := hostExec_forgetRecord
      (decode_encode_rdpix (BitVec.ofNat 16 p.1) (BitVec.ofNat 16 p.2))
      (readsNoRecord_rdpix _ _) hs h
    have word := congrArg State.result read
    obtain ⟨words, state⟩ := ih (hostExec_idle _ _) read
    exact ⟨congrArg₂ List.cons word words, state⟩

theorem readOut_eq (s : State) :
    let read := hostReadPixels (pixelCoords s.canvasW.toNat s.canvasH.toNat) s
    readOut s = (⟨s.canvasW, s.canvasH, s.dpiX, s.dpiY, read.1⟩, read.2) := rfl

theorem readOut_forgetRecord {s t : State} (hs : s.cmdReg = none)
    (h : forgetRecord s = forgetRecord t) :
    (readOut s).1 = (readOut t).1 ∧ forgetRecord (readOut s).2 = forgetRecord (readOut t).2 := by
  have declared := snapshot_eq_of_forgetRecord_eq h
  have width : s.canvasW = t.canvasW := congrArg Snapshot.width declared
  have height : s.canvasH = t.canvasH := congrArg Snapshot.height declared
  have dpiX : s.dpiX = t.dpiX := congrArg Snapshot.dpiX declared
  have dpiY : s.dpiY = t.dpiY := congrArg Snapshot.dpiY declared
  obtain ⟨pixels, state⟩ :=
    hostReadPixels_forgetRecord (pixelCoords t.canvasW.toNat t.canvasH.toNat) hs h
  rw [readOut_eq, readOut_eq, width, height, dpiX, dpiY, pixels]
  exact ⟨rfl, state⟩

/-- The outcome with the tile unpacker of its state forgotten. -/
def RenderOutcome.forgetRecord : RenderOutcome → RenderOutcome
  | .published image s => .published image (Machine.forgetRecord s)
  | .stopped why s => .stopped why (Machine.forgetRecord s)

theorem publish_forgetRecord (c : HostConfig) {s t : State} (hs : s.cmdReg = none)
    (h : forgetRecord s = forgetRecord t) :
    (publish c s).forgetRecord = (publish c t).forgetRecord := by
  have declared := hostExec_forgetRecord
    (decode_encode_materialize c.params.dpiX c.params.dpiY) (readsNoRecord_materialize _ _) hs h
  obtain ⟨image, state⟩ := readOut_forgetRecord (hostExec_idle _ _) declared
  exact congrArg₂ RenderOutcome.published image state

/-! ### Valid and invalid records (R194, R204) -/

/-- The records that the block decodes: those the source decodes (R111). -/
def validRecord (r : List CodeUnit) : Bool := (sourceDecode r).isSome

/-- REC_END leaves the nibbles as they are. -/
theorem effect_recEnd_recNib (s : State) : (effect .recEnd s).recNib = s.recNib := by
  by_cases h : recordCode s = .ok
  · rw [effect_recEnd_valid h]; rfl
  · rw [effect_recEnd_invalid h]; rfl

theorem length_keptChars_of_sourceDecode {r : List CodeUnit} {tile : Vector Shade 64}
    (hr : sourceDecode r = some tile) : (keptChars r).length = 32 := by
  by_contra h
  rw [sourceDecode_badlen h] at hr
  cases hr

/-- The nibbles of a valid record's digits. -/
def recordNibbles (kept : List CodeUnit) : Vector Nibble 32 :=
  Vector.ofFn fun k => hexval (kept.getD k.val 0)

theorem assembled_recNib_eq {r : List CodeUnit} (hlen : (keptChars r).length = 32) (s : State) :
    (assembled r s).recNib = recordNibbles (keptChars r) := by
  apply Vector.ext
  intro k hk
  rw [recordNibbles, Vector.getElem_ofFn]
  exact assembled_recNib s (k := ⟨k, hk⟩) (by rw [hlen]; exact hk)

/-- What a record writes is a function of the record alone when it is valid (R108). -/
theorem hostRecord_of_sourceDecode {r : List CodeUnit} {tile : Vector Shade 64}
    (hr : sourceDecode r = some tile) {s : State} (hs : s.cmdReg = none) :
    hostRecord r s = (0, { forgetRecord s with
      recNib := recordNibbles (keptChars r), tile := tile, tileValid := true }) := by
  obtain ⟨nib, hrec⟩ := recordRefinesSourceDecoder s r hs
  rw [hr] at hrec
  have hnib : recordNibbles (keptChars r) = nib := by
    rw [← assembled_recNib_eq (length_keptChars_of_sourceDecode hr) s, ← effect_recEnd_recNib]
    exact congrArg (fun p => p.2.recNib) ((hostRecord_eq r hs).symm.trans hrec)
  rw [hnib]
  exact hrec

/-- A valid record overwrites all that records write, whatever stood there. -/
theorem hostRecord_of_valid {r : List CodeUnit} (hv : validRecord r = true) {s t : State}
    (hs : s.cmdReg = none) (h : forgetRecord s = forgetRecord t) :
    hostRecord r s = hostRecord r t ∧ (hostRecord r s).1 = 0 := by
  obtain ⟨tile, htile⟩ := Option.isSome_iff_exists.1 hv
  rw [hostRecord_of_sourceDecode htile hs,
    hostRecord_of_sourceDecode htile (idle_of_forgetRecord_eq h hs), h]
  exact ⟨rfl, rfl⟩

/-- An invalid record writes nothing but what a later valid one overwrites (R104, R204). -/
theorem hostRecord_of_invalid {r : List CodeUnit} (hv : validRecord r = false) {s : State}
    (hs : s.cmdReg = none) :
    (hostRecord r s).1 ≠ 0 ∧ forgetRecord (hostRecord r s).2 = forgetRecord s := by
  obtain ⟨nib, hrec⟩ := recordRefinesSourceDecoder s r hs
  rw [Option.isNone_iff_eq_none.1 (Option.isSome_eq_false_iff.1 hv)] at hrec
  obtain ⟨code, hcode, e⟩ := hrec
  have nonzero : code ≠ 0 := by rcases hcode with rfl | rfl <;> decide
  rw [e]
  exact ⟨nonzero, rfl⟩

theorem hostRecord_idle (r : List CodeUnit) (s : State) : (hostRecord r s).2.cmdReg = none := by
  rw [hostRecord, recordCommands, ← List.cons_append, hostExecAll_append]
  exact hostExec_idle _ _

/-! ### The host's passes (R194, R198, R202) -/

/-- The counting pass counts and the keeping pass keeps the valid records, by the same commands. -/
theorem keepingPass_eq (rs : List (List CodeUnit)) {s : State} (hs : s.cmdReg = none) :
    keepingPass rs s = (rs.filter validRecord, (countingPass rs s).2) ∧
      (countingPass rs s).1 = (rs.filter validRecord).length := by
  induction rs generalizing s with
  | nil => exact ⟨rfl, rfl⟩
  | cons r rs ih =>
    obtain ⟨kept, count⟩ := ih (hostRecord_idle r s)
    cases hv : validRecord r with
    | true =>
      have code := (hostRecord_of_valid hv hs rfl).2
      rw [keepingPass, countingPass, List.filter_cons_of_pos hv]
      dsimp only
      rw [if_pos code, if_pos code, kept, count, List.length_cons]
      exact ⟨rfl, rfl⟩
    | false =>
      have code := (hostRecord_of_invalid hv hs).1
      rw [keepingPass, countingPass, List.filter_cons_of_neg (by rw [hv]; decide)]
      dsimp only
      rw [if_neg code, if_neg code, kept, count]
      exact ⟨rfl, rfl⟩

theorem paintingPass_idle (c : HostConfig) (limit k : Nat) (rs : List (List CodeUnit)) {s : State}
    (hs : s.cmdReg = none) : (paintingPass c limit k rs s).cmdReg = none := by
  induction rs generalizing k s with
  | nil => exact hs
  | cons r rs ih =>
    have idle := hostRecord_idle r s
    rw [paintingPass]
    dsimp only
    split
    · exact ih k idle
    · split
      · exact ih (k + 1) (hostExec_idle _ _)
      · exact ih (k + 1) idle

/-- Invalid records paint nothing: the painting pass over the valid ones alone leaves the same block
apart from the tile unpacker. -/
theorem paintingPass_filter_valid (c : HostConfig) (limit k : Nat) (rs : List (List CodeUnit))
    {s t : State} (hs : s.cmdReg = none) (h : forgetRecord s = forgetRecord t) :
    forgetRecord (paintingPass c limit k (rs.filter validRecord) t) =
      forgetRecord (paintingPass c limit k rs s) := by
  induction rs generalizing k s t with
  | nil => exact h.symm
  | cons r rs ih =>
    have idle := hostRecord_idle r s
    cases hv : validRecord r with
    | true =>
      obtain ⟨same, code⟩ := hostRecord_of_valid hv hs h
      rw [List.filter_cons_of_pos hv, paintingPass, paintingPass, ← same]
      dsimp only
      rw [if_neg (not_not_intro code), if_neg (not_not_intro code)]
      split
      · exact ih (k + 1) (hostExec_idle _ _) rfl
      · exact ih (k + 1) idle rfl
    | false =>
      obtain ⟨code, forgets⟩ := hostRecord_of_invalid hv hs
      rw [List.filter_cons_of_neg (by rw [hv]; decide), paintingPass]
      dsimp only
      rw [if_pos code]
      exact ih k idle (forgets.trans h)

/-! ### Captures (R202) -/

theorem renderCanvas_filter_valid (c : HostConfig) (n : Nat) (rs : List (List CodeUnit))
    (s : State) :
    (renderCanvas c n (rs.filter validRecord) s).forgetRecord =
      (renderCanvas c n rs s).forgetRecord := by
  unfold renderCanvas
  dsimp only
  split
  · split
    · rfl
    · exact publish_forgetRecord c (paintingPass_idle _ _ _ _ (hostExec_idle _ _))
        (paintingPass_filter_valid _ _ _ _ (hostExec_idle _ _) rfl)
  · rfl

/-- The single-pass host ends as the two-pass host does, the tile unpacker left aside. -/
theorem captureSinglePass_forgetRecord (c : HostConfig) (blob : List CodeUnit) {s : State}
    (hs : s.cmdReg = none) :
    (captureSinglePass c blob s).forgetRecord = (capture c blob s).forgetRecord := by
  unfold captureSinglePass capture
  split
  · obtain ⟨kept, count⟩ := keepingPass_eq (candidates blob) hs
    rw [kept]
    dsimp only
    rw [count]
    exact renderCanvas_filter_valid ..
  · rfl

theorem RenderOutcome.published_of_forgetRecord_eq {o : RenderOutcome} {image : HostImage}
    {t : State} (h : o.forgetRecord = (RenderOutcome.published image t).forgetRecord) :
    ∃ t', o = .published image t' ∧ Machine.forgetRecord t' = Machine.forgetRecord t := by
  cases o with
  | published image' t' =>
    obtain ⟨rfl, ht⟩ := RenderOutcome.published.inj h
    exact ⟨t', rfl, ht⟩
  | stopped why t' => cases h

end Sys2Proof.Machine
end

section
open Sys2Proof.Machine Sys2Proof.Safety

/-- Settles O56: the skipped lines are the blank ones and the comments, and a capture reads nothing of
its blob but the candidates (R192, R203). -/
theorem skippedLinesIssueNothing : Obligations.SkippedLinesIssueNothing := by
  unfold Obligations.SkippedLinesIssueNothing
  intro skipped
  have hcand : ∀ l, isCandidate l = !skipped l := fun l => by
    rw [isCandidate, isCommentLine_eq, ← Bool.not_or, Bool.or_comm]
    rfl
  refine ⟨hcand, fun c s lines hlf => capture_congr ?_ c s⟩
  have hkeep : (lines.filter fun l => !skipped l) = lines.filter isCandidate :=
    List.filter_congr fun l _ => (hcand l).symm
  rw [hkeep, candidates_intercalate hlf,
    candidates_intercalate fun l hl => hlf l (List.mem_of_mem_filter hl), List.filter_filter]
  simp only [Bool.and_self]

/-- Settles O58: the two hosts end alike apart from the tile unpacker, of which the image and the
canvas hold nothing (R202). -/
theorem singlePassGivesSameImage : Obligations.SinglePassGivesSameImage := by
  intro c blob s t image hs hcap
  have same := captureSinglePass_forgetRecord c blob hs
  rw [hcap] at same
  obtain ⟨t', hpub, ht⟩ := RenderOutcome.published_of_forgetRecord_eq same
  exact ⟨t', hpub, snapshot_eq_of_forgetRecord_eq ht⟩

end

section
/-! Errors (spec/60_exceptions.md rules R210 to R215): a command either ends with a code below 3 or
is exactly `raise` of one error; an overrun; and how `run` follows `step`. -/

namespace Sys2Proof.Machine

/-! ### Programming errors (R211, R213) -/

/-- Rule R211's table of the errors: each one's code beside its sticky bit. -/
theorem ErrorKind.code_stickyBit (e : ErrorKind) :
    (e.code.bits = 3 ∧ e.stickyBit = 0b010000) ∨ (e.code.bits = 4 ∧ e.stickyBit = 0b001000) ∨
      (e.code.bits = 5 ∧ e.stickyBit = 0b000010) ∨ (e.code.bits = 6 ∧ e.stickyBit = 0b000100) ∨
      (e.code.bits = 7 ∧ e.stickyBit = 0b000001) := by
  cases e <;> decide

/-- REC_END's two refusals are codes 1 and 2, no programming errors (R103). -/
theorem recordCode_lt_three (s : State) : (recordCode s).bits.toNat < 3 := by
  rcases recordCode_cases s with ⟨_, h⟩ | ⟨_, _, h⟩ | ⟨_, _, h⟩ <;> rw [h] <;> decide

theorem code_lt_three_of_finish_ok {t u : State} (h : t = finish .ok u) : t.lastCode.toNat < 3 := by
  rw [h, finish_lastCode]
  decide

/-- A command that does not end with a code below 3 has done nothing but raise one error (R213). -/
theorem effect_code_lt_three_or_raise (i : Instr) (s : State) :
    (effect i s).lastCode.toNat < 3 ∨ ∃ e, effect i s = raise e s := by
  cases i with
  | nop => exact .inl (code_lt_three_of_finish_ok (effect_nop s))
  | recBegin => exact .inl (code_lt_three_of_finish_ok (effect_recBegin s))
  | recChar ch =>
    cases h : isStrip ch
    · exact .inl (code_lt_three_of_finish_ok (effect_recChar_kept h s))
    · exact .inl (code_lt_three_of_finish_ok (effect_recChar_strip h s))
  | recEnd =>
    by_cases h : recordCode s = .ok
    · exact .inl (code_lt_three_of_finish_ok (effect_recEnd_valid h))
    · left
      rw [effect_recEnd_invalid h, finish_lastCode]
      exact recordCode_lt_three s
  | rdshade idx =>
    cases h : s.tileValid
    · exact .inr ⟨.notile, effect_rdshade_invalid h idx⟩
    · exact .inl (code_lt_three_of_finish_ok (effect_rdshade_valid h idx))
  | alloc w h =>
    rcases effect_alloc_cases w h s with ⟨_, e⟩ | ⟨_, _, _, e⟩ | ⟨_, _, e⟩
    · exact .inr ⟨.baddim, e⟩
    · exact .inl (code_lt_three_of_finish_ok e)
    · exact .inl (code_lt_three_of_finish_ok e)
  | fill c => exact .inl (code_lt_three_of_finish_ok (effect_fill c s))
  | paint b col row sx sy =>
    rcases effect_paint_cases b col row sx sy s with
      ⟨_, e⟩ | ⟨_, _, _, e⟩ | ⟨_, _, _, _, e⟩ | ⟨_, _, _, _, e⟩
    · exact .inr ⟨.badarg, e⟩
    · exact .inr ⟨.notile, e⟩
    · exact .inr ⟨.oob, e⟩
    · exact .inl (code_lt_three_of_finish_ok e)
  | replace old new => exact .inl (code_lt_three_of_finish_ok (effect_replace old new s))
  | materialize x y => exact .inl (code_lt_three_of_finish_ok (effect_materialize x y s))
  | rdpix x y =>
    rcases effect_rdpix_cases x y s with ⟨_, e⟩ | ⟨_, e⟩
    · exact .inr ⟨.oob, e⟩
    · exact .inl (code_lt_three_of_finish_ok e)
  | setpal b i c => exact .inl (code_lt_three_of_finish_ok (effect_setpal b i c s))
  | rdpal b i => exact .inl (code_lt_three_of_finish_ok (effect_rdpal b i s))
  | clrerr m => exact .inl (code_lt_three_of_finish_ok (effect_clrerr m s))

/-- The same of every word: one that is no command raises ILLEGAL (R87, R214). -/
theorem wordEffect_code_lt_three_or_raise (w : CmdWord) (s : State) :
    (wordEffect w s).lastCode.toNat < 3 ∨ ∃ e, wordEffect w s = raise e s := by
  cases hd : decode w with
  | ok i =>
    rw [wordEffect_of_ok hd]
    exact effect_code_lt_three_or_raise i s
  | error r => exact .inr ⟨.illegal, wordEffect_of_error hd s⟩

/-! ### The scheduled moves (R215, R217) -/

/-- An issue while a command is pending sets OVERRUN and nothing else (R39, R215). -/
theorem step_issue_busy {s : State} {v w : CmdWord} {rest : List Event}
    (hs : s.schedule = .issue w :: rest) (hc : s.cmdReg = some v) :
    step s = .next { s with schedule := rest, errstat := s.errstat ||| 0b100000 } := by
  have busy := issue_busy (s := { s with schedule := rest }) hc w
  rw [step_scheduled hs, move, busy]
  rfl

/-- The last scheduled turn of the sequencer is the turn an empty schedule gives. -/
theorem step_last_turn (s : State) :
    step { s with schedule := [.sequencer] } = step { s with schedule := [] } := by
  rw [step_sequencer, step_unscheduled rfl]

end Sys2Proof.Machine

namespace Sys2Proof.Safety

open Sys2Proof.Machine

/-! ### Runs -/

theorem run_succ_of_step {s t : State} (h : step s = .next t) (k : Nat) :
    run (k + 1) s = run k t := by
  rw [run, h]

theorem run_one (s : State) : run 1 s = step s := by
  rw [run]
  cases step s <;> rfl

end Sys2Proof.Safety
end

section
open Sys2Proof Sys2Proof.Machine Sys2Proof.Safety

/-- Settles O12: the overrunning issue leaves the pending word in `CMDREG`, so the turn that follows
is the turn an empty schedule would give (R215). -/
theorem overrunLeavesPendingCommand : Obligations.OverrunLeavesPendingCommand := by
  intro s w w' hc hs
  have overrun := step_issue_busy hs hc
  refine ⟨overrun, ?_⟩
  calc run 2 s
      = run 1 { s with schedule := [.sequencer], errstat := s.errstat ||| 0b100000 } :=
        run_succ_of_step overrun 1
    _ = step { s with schedule := [.sequencer], errstat := s.errstat ||| 0b100000 } := run_one _
    _ = step { s with schedule := [], errstat := s.errstat ||| 0b100000 } :=
        step_last_turn { s with errstat := s.errstat ||| 0b100000 }

/-- Settles O51: a code of 3 or more leaves only `raise` of one error, which writes that error's
sticky bit and code (R211, R213). -/
theorem programmingErrorsArePrecise : Obligations.ProgrammingErrorsArePrecise := by
  intro w s t hc hs hstep hcode
  rw [step_unscheduled hs, sequencerTurn_busy hc] at hstep
  obtain rfl := Host.Outcome.next.inj hstep
  rcases wordEffect_code_lt_three_or_raise w s with low | ⟨e, raised⟩
  · exact absurd hcode (Nat.not_le.2 low)
  · rw [raised]
    exact ⟨e.stickyBit, e.code_stickyBit, rfl⟩

end

section
/-! The encoding's two directions for every command (spec/30_encoding.md rules R83 to R91): the
fields of a command's word read back, a word that a row matches is written again from its fields,
and the assembler commands that are well formed are those that write a command. -/

namespace Sys2Proof

/-! ### Words (R83, R85, R88) -/

theorem rowMatch (i : Instr) : Laws.RowMatch.Statement i := by
  cases i with
  | nop => exact Laws.RowMatch.nop
  | recBegin => exact Laws.RowMatch.recBegin
  | recChar ch => exact Laws.RowMatch.recChar ch
  | recEnd => exact Laws.RowMatch.recEnd
  | rdshade idx => exact Laws.RowMatch.rdshade idx
  | alloc w h => exact Laws.RowMatch.alloc w h
  | fill rgb => exact Laws.RowMatch.fill rgb
  | paint bank col row sx sy => exact Laws.RowMatch.paint bank col row sx sy
  | replace old new => exact Laws.RowMatch.replace old new
  | materialize dpiX dpiY => exact Laws.RowMatch.materialize dpiX dpiY
  | rdpix x y => exact Laws.RowMatch.rdpix x y
  | setpal bank idx rgb => exact Laws.RowMatch.setpal bank idx rgb
  | rdpal bank idx => exact Laws.RowMatch.rdpal bank idx
  | clrerr mask => exact Laws.RowMatch.clrerr mask

/-- Every field reads back from the word: it stands where it was placed, and the opcode and the
other fields stand beside it (R83). -/
theorem readFields_encode (i : Instr) : readFields i.mnemonic (encode i) = i := by
  cases i <;>
    simp (disch := omega) only [Instr.mnemonic, encode, readFields, BitVec.extractLsb'_or,
      extract_place_same, extract_place_apart, BitVec.zero_or, BitVec.or_zero]

/-- Decoding an encoded command gives it back (R89). -/
theorem decode_encode (i : Instr) : decode (encode i) = .ok i :=
  decode_encode_of_rowMatch (rowMatch i) (readFields_encode i)

/-- A word that a row matches is the word of its fields: the row's mask and the fields cover every
bit (R85, R88). -/
theorem encode_readFields {r : OpcodeRow} (hr : r ∈ opcodeTable) {w : CmdWord}
    (h : w &&& r.mask = r.matchBits) : encode (readFields r.mnemonic w) = w := by
  simp only [opcodeTable, List.mem_cons, List.not_mem_nil, or_false] at hr
  rcases hr with rfl | rfl | rfl | rfl | rfl | rfl | rfl | rfl | rfl | rfl | rfl | rfl | rfl | rfl
  -- NOP, REC_BEGIN and REC_END have no fields: their masks cover the word
  case inl | inr.inl | inr.inr.inr.inl =>
    exact h.symm.trans (BitVec.and_allOnes (x := w))
  all_goals
    simp only [readFields, encode, place_extract, BitVec.or_assoc, and_or_and]
    exact or_and_eq_self h (by decide) (by decide)

/-! ### Well-formed assembler commands (R84, R91) -/

/-- A well-formed command has, field by field, an operand that the field can hold. -/
theorem AsmCommand.wellFormed_iff (c : AsmCommand) :
    c.wellFormed = true ↔
      List.Forall₂ (fun v n => ∃ b : BitVec n, b.toNat = v) c.operands
        c.mnemonic.operandWidths := by
  have field (v n : Nat) : (∃ b : BitVec n, b.toNat = v) ↔ v < 2 ^ n :=
    ⟨fun ⟨b, hb⟩ => hb ▸ b.isLt, fun hv => ⟨BitVec.ofNatLT v hv, BitVec.toNat_ofNatLT v hv⟩⟩
  simp only [field, List.forall₂_iff_zip, AsmCommand.wellFormed, AsmCommand.countOk,
    AsmCommand.widthsOk, Bool.and_eq_true, beq_iff_eq, List.all_eq_true, decide_eq_true_eq,
    Prod.forall]

/-- The operands that write a command fit its fields: they are the fields' own values. -/
theorem Instr.wellFormed_toAsm (i : Instr) : i.toAsm.wellFormed = true := by
  rw [AsmCommand.wellFormed_iff]
  cases i <;> simp [Instr.toAsm, Mnemonic.operandWidths]

/-- A well-formed assembler command writes a command. -/
theorem AsmCommand.exists_toAsm {c : AsmCommand} (h : c.wellFormed = true) :
    ∃ i : Instr, i.toAsm = c := by
  rw [AsmCommand.wellFormed_iff] at h
  obtain ⟨m, operands⟩ := c
  cases m with
  | nop => cases h; exact ⟨.nop, rfl⟩
  | recBegin => cases h; exact ⟨.recBegin, rfl⟩
  | recChar => obtain _ | ⟨⟨ch, rfl⟩, _ | _⟩ := h; exact ⟨.recChar ch, rfl⟩
  | recEnd => cases h; exact ⟨.recEnd, rfl⟩
  | rdshade => obtain _ | ⟨⟨idx, rfl⟩, _ | _⟩ := h; exact ⟨.rdshade idx, rfl⟩
  | alloc => obtain _ | ⟨⟨w, rfl⟩, _ | ⟨⟨h, rfl⟩, _ | _⟩⟩ := h; exact ⟨.alloc w h, rfl⟩
  | fill => obtain _ | ⟨⟨rgb, rfl⟩, _ | _⟩ := h; exact ⟨.fill rgb, rfl⟩
  | paint =>
    obtain _ | ⟨⟨bank, rfl⟩, _ | ⟨⟨col, rfl⟩, _ | ⟨⟨row, rfl⟩, _ | ⟨⟨sx, rfl⟩, _ | ⟨⟨sy, rfl⟩,
      _ | _⟩⟩⟩⟩⟩ := h
    exact ⟨.paint bank col row sx sy, rfl⟩
  | replace =>
    obtain _ | ⟨⟨old, rfl⟩, _ | ⟨⟨new, rfl⟩, _ | _⟩⟩ := h; exact ⟨.replace old new, rfl⟩
  | materialize =>
    obtain _ | ⟨⟨x, rfl⟩, _ | ⟨⟨y, rfl⟩, _ | _⟩⟩ := h; exact ⟨.materialize x y, rfl⟩
  | rdpix => obtain _ | ⟨⟨x, rfl⟩, _ | ⟨⟨y, rfl⟩, _ | _⟩⟩ := h; exact ⟨.rdpix x y, rfl⟩
  | setpal =>
    obtain _ | ⟨⟨bank, rfl⟩, _ | ⟨⟨idx, rfl⟩, _ | ⟨⟨rgb, rfl⟩, _ | _⟩⟩⟩ := h
    exact ⟨.setpal bank idx rgb, rfl⟩
  | rdpal => obtain _ | ⟨⟨bank, rfl⟩, _ | ⟨⟨idx, rfl⟩, _ | _⟩⟩ := h; exact ⟨.rdpal bank idx, rfl⟩
  | clrerr => obtain _ | ⟨⟨mask, rfl⟩, _ | _⟩ := h; exact ⟨.clrerr mask, rfl⟩

end Sys2Proof

namespace Sys2Proof.Machine

/-- The assembler gives a command back from the operands that write it. -/
theorem assembleCommand_toAsm (i : Instr) : assembleCommand i.toAsm = some i := by
  rw [assembleCommand, if_pos i.wellFormed_toAsm]
  cases i <;> simp only [Instr.toAsm, BitVec.ofNat_toNat, BitVec.setWidth_eq]

theorem assembleCommand_of_not_wellFormed {c : AsmCommand} (h : c.wellFormed = false) :
    assembleCommand c = none := by
  rw [assembleCommand, if_neg (by rw [h]; decide)]

/-- Everything the assembler can do: it refuses a command that is not well formed, and answers the
command that a well-formed one writes. -/
theorem assembleCommand_cases (c : AsmCommand) :
    (c.wellFormed = false ∧ assembleCommand c = none) ∨
      ∃ i : Instr, i.toAsm = c ∧ assembleCommand c = some i := by
  cases h : c.wellFormed with
  | false => exact .inl ⟨rfl, assembleCommand_of_not_wellFormed h⟩
  | true =>
    obtain ⟨i, rfl⟩ := AsmCommand.exists_toAsm h
    exact .inr ⟨i, rfl, assembleCommand_toAsm i⟩

end Sys2Proof.Machine
end

section
open Sys2Proof Sys2Proof.Machine

/-- Settles O1: the command's row accepts its word, and the fields read back (R83, R89). -/
theorem decodeOfEncode : Obligations.DecodeOfEncode := decode_encode

/-- Settles O2: what decodes is matched by a row, and the fields of a matched word write it again.
-/
theorem encodeOfDecode : Obligations.EncodeOfDecode := by
  intro w i h
  obtain ⟨r, hr, ha, rfl⟩ := decode_ok_cases h
  exact encode_readFields hr (accepts_iff.1 ha)

/-- Settles O6: the table's words are the encodings of its commands (R91). -/
theorem syntaxTableWordsDecode : Obligations.SyntaxTableWordsDecode :=
  ⟨decode_encode .nop, decode_encode .recBegin, decode_encode (.recChar 0x46),
    decode_encode .recEnd, decode_encode (.rdshade 9), decode_encode (.alloc 480 24),
    decode_encode (.fill 0x000000), decode_encode (.paint 0 1 0 3 3),
    decode_encode (.replace 0xFFFFFF 0x9BBC0F), decode_encode (.materialize 96 96),
    decode_encode (.rdpix 8 0), decode_encode (.setpal 1 2 0x306230), decode_encode (.rdpal 1 3),
    decode_encode (.clrerr 0x3F)⟩

/-- Settles O7: the well-formed assembler commands are those that write a command, and the assembler
answers that command (R84, R91). -/
theorem assemblerKeepsOperands : Obligations.AssemblerKeepsOperands := by
  refine ⟨assembleCommand_toAsm, fun c i h => ?_, fun c => ⟨fun h => ?_,
    assembleCommand_of_not_wellFormed⟩⟩
  all_goals obtain ⟨hwf, hnone⟩ | ⟨j, rfl, hj⟩ := assembleCommand_cases c
  · cases hnone.symm.trans h
  · rw [Option.some.inj (hj.symm.trans h)]
  · exact hwf
  · cases hj.symm.trans h

end

section
/-! What each command writes (spec/10_state.md rules R38 and R47): a command either raises one error
or writes the elements of its own rule alone; and no command reads a status flag but `TILE_VALID`.
-/

namespace Sys2Proof.Machine

/-- Rule R47's table for a command that raises no error: `t` has `s`'s elements wherever the
command's rule writes none. -/
structure WritesOwnFields (i : Instr) (s t : State) : Prop where
  tile : i ≠ .recEnd → t.tileValid = s.tileValid ∧ t.tile = s.tile
  record : i ≠ .recBegin → i ≠ .recEnd → (∀ ch, i ≠ .recChar ch) →
    t.recLen = s.recLen ∧ t.recNonhex = s.recNonhex ∧ t.recNib = s.recNib
  result : (∀ n, i ≠ .rdshade n) → (∀ x y, i ≠ .rdpix x y) → (∀ b n, i ≠ .rdpal b n) →
    t.result = s.result
  canvas : (∀ w h, i ≠ .alloc w h) → t.canvasW = s.canvasW ∧ t.canvasH = s.canvasH
  dpi : (∀ x y, i ≠ .materialize x y) → t.dpiX = s.dpiX ∧ t.dpiY = s.dpiY
  pal : (∀ b n c, i ≠ .setpal b n c) → t.pal = s.pal
  fb : (∀ w h, i ≠ .alloc w h) → (∀ c, i ≠ .fill c) → (∀ b c r x y, i ≠ .paint b c r x y) →
    (∀ o n, i ≠ .replace o n) → t.fb = s.fb
  errstat : (∀ m, i ≠ .clrerr m) → t.errstat = s.errstat
  cmdReg : t.cmdReg = s.cmdReg

/-- Ending a command writes `LAST_CODE` alone. -/
theorem WritesOwnFields.finish {i : Instr} {s t : State} (h : WritesOwnFields i s t)
    (c : ResultCode) : WritesOwnFields i s (finish c t) :=
  ⟨h.tile, h.record, h.result, h.canvas, h.dpi, h.pal, h.fb, h.errstat, h.cmdReg⟩

theorem writesOwnFields_latchPixel (x y : Dim) (p : Pixel) (s : State) :
    WritesOwnFields (.rdpix x y) s (latchPixel p s) := by
  cases p <;> constructor <;> simp [latchPixel]

/-- Everything a command can do to the elements of the block: it raises one error, or writes its own
elements alone (R47, R213). -/
theorem effect_raises_or_writes (i : Instr) (s : State) :
    (∃ e, effect i s = raise e s) ∨ WritesOwnFields i s (effect i s) := by
  cases i with
  | nop => right; constructor <;> simp [effect_nop]
  | recBegin => right; constructor <;> simp [effect_recBegin]
  | recChar ch =>
    right
    cases h : isStrip ch
    · rw [effect_recChar_kept h]; constructor <;> simp
    · rw [effect_recChar_strip h]; constructor <;> simp
  | recEnd =>
    right
    by_cases h : recordCode s = .ok
    · rw [effect_recEnd_valid h]; constructor <;> simp
    · rw [effect_recEnd_invalid h]; constructor <;> simp
  | rdshade idx =>
    cases h : s.tileValid
    · exact .inl ⟨.notile, effect_rdshade_invalid h idx⟩
    · right; rw [effect_rdshade_valid h]; constructor <;> simp
  | alloc w h =>
    rcases effect_alloc_cases w h s with ⟨_, e⟩ | ⟨_, _, _, e⟩ | ⟨_, _, e⟩
    · exact .inl ⟨.baddim, e⟩
    · right; rw [e]; constructor <;> simp
    · right; rw [e]; constructor <;> simp
  | fill c => right; constructor <;> simp [effect_fill]
  | paint b col row sx sy =>
    rcases effect_paint_cases b col row sx sy s with
      ⟨_, e⟩ | ⟨_, _, _, e⟩ | ⟨_, _, _, _, e⟩ | ⟨_, _, _, _, e⟩
    · exact .inl ⟨.badarg, e⟩
    · exact .inl ⟨.notile, e⟩
    · exact .inl ⟨.oob, e⟩
    · right; rw [e]; constructor <;> simp
  | replace old new => right; constructor <;> simp [effect_replace]
  | materialize x y => right; constructor <;> simp [effect_materialize]
  | rdpix x y =>
    rcases effect_rdpix_cases x y s with ⟨_, e⟩ | ⟨_, e⟩
    · exact .inl ⟨.oob, e⟩
    · right; rw [e]; exact (writesOwnFields_latchPixel x y _ s).finish .ok
  | setpal b i c => right; constructor <;> simp [effect_setpal]
  | rdpal b i => right; constructor <;> simp [effect_rdpal]
  | clrerr m => right; constructor <;> simp [effect_clrerr]

theorem snapshot_congr {s t : State} (canvas : t.canvasW = s.canvasW ∧ t.canvasH = s.canvasH)
    (dpi : t.dpiX = s.dpiX ∧ t.dpiY = s.dpiY) (fb : t.fb = s.fb) :
    Safety.snapshot t = Safety.snapshot s := by
  have pixel : memRead t = memRead s := funext fun a => by
    rw [memRead_eq_read, memRead_eq_read, fb]
  rw [Safety.snapshot, Safety.snapshot, State.pixelCount, State.pixelCount, canvas.1, canvas.2,
    dpi.1, dpi.2, pixel]

/-! ### `ERRSTAT` (R38) -/

/-- What a command but CLRERR can do to `ERRSTAT`: nothing, or set one error's bit. -/
theorem effect_errstat_cases {i : Instr} (hi : ∀ m, i ≠ .clrerr m) (s : State) :
    (effect i s).errstat = s.errstat ∨
      ∃ e : ErrorKind, (effect i s).errstat = s.errstat ||| e.stickyBit := by
  rcases effect_raises_or_writes i s with ⟨e, h⟩ | h
  · exact .inr ⟨e, by rw [h, raise_errstat]⟩
  · exact .inl (h.errstat hi)

/-- The same of a word; one that is no command sets ILLEGAL (R87). -/
theorem wordEffect_errstat_cases {w : CmdWord} (hw : ∀ m, decode w ≠ .ok (.clrerr m)) (s : State) :
    (wordEffect w s).errstat = s.errstat ∨
      ∃ e : ErrorKind, (wordEffect w s).errstat = s.errstat ||| e.stickyBit := by
  cases hd : decode w with
  | ok i =>
    rw [wordEffect_of_ok hd]
    exact effect_errstat_cases (fun m hm => hw m (by rw [hd, hm])) s
  | error r => exact .inr ⟨.illegal, by rw [wordEffect_of_error hd, raise_errstat]⟩

theorem getLsbD_or_of_left {n k : Nat} {e : BitVec n} (h : e.getLsbD k = true) (e' : BitVec n) :
    (e ||| e').getLsbD k = true := by
  rw [BitVec.getLsbD_or, h, Bool.true_or]

theorem wordEffect_keeps_sticky {w : CmdWord} (hw : ∀ m, decode w ≠ .ok (.clrerr m)) {s : State}
    {n : Nat} (h : s.errstat.getLsbD n = true) : (wordEffect w s).errstat.getLsbD n = true := by
  rcases wordEffect_errstat_cases hw s with e | ⟨_, e⟩ <;> rw [e]
  · exact h
  · exact getLsbD_or_of_left h _

/-! ### What no command reads (R47, R220) -/

/-- `s` with other status flags. -/
def withStatus (e : BitVec 6) (c : BitVec 4) (v : HostWord) (s : State) : State :=
  { s with errstat := e, lastCode := c, result := v }

/-- `t'` is `t` but for `ERRSTAT` and, where `t` has `r`, the `RESULT` of before, for `RESULT`. -/
def SteeredAlike (v r : HostWord) (t' t : State) : Prop :=
  t' = { t with errstat := t'.errstat, result := t'.result } ∧
    (t'.result = t.result ∨ (t'.result = v ∧ t.result = r))

/-- No command reads `ERRSTAT`, `LAST_CODE` or `RESULT`. -/
theorem effect_withStatus (e : BitVec 6) (c : BitVec 4) (v : HostWord) (i : Instr) (s : State) :
    SteeredAlike v s.result (effect i (withStatus e c v s)) (effect i s) := by
  cases i with
  | recChar ch =>
    cases h : isStrip ch
    · rw [effect_recChar_kept h, effect_recChar_kept h]; exact ⟨rfl, .inr ⟨rfl, rfl⟩⟩
    · rw [effect_recChar_strip h, effect_recChar_strip h]; exact ⟨rfl, .inr ⟨rfl, rfl⟩⟩
  | recEnd =>
    have hc : recordCode (withStatus e c v s) = recordCode s := rfl
    by_cases h : recordCode s = .ok
    · rw [effect_recEnd_valid h, effect_recEnd_valid (hc.trans h)]; exact ⟨rfl, .inr ⟨rfl, rfl⟩⟩
    · rw [effect_recEnd_invalid h, effect_recEnd_invalid (hc ▸ h), hc]
      exact ⟨rfl, .inr ⟨rfl, rfl⟩⟩
  | rdshade idx =>
    cases h : s.tileValid
    · rw [effect_rdshade_invalid h, effect_rdshade_invalid (s := withStatus e c v s) h]
      exact ⟨rfl, .inr ⟨rfl, rfl⟩⟩
    · rw [effect_rdshade_valid h, effect_rdshade_valid (s := withStatus e c v s) h]
      exact ⟨rfl, .inl rfl⟩
  | alloc w h =>
    rcases effect_alloc_cases w h s with ⟨big, q⟩ | ⟨fits, hw, hh, q⟩ | ⟨fits, hd, q⟩ <;> rw [q]
    · rw [effect_alloc_baddim (s := withStatus e c v s) big]; exact ⟨rfl, .inr ⟨rfl, rfl⟩⟩
    · rw [effect_alloc_same (s := withStatus e c v s) fits hw hh]; exact ⟨rfl, .inr ⟨rfl, rfl⟩⟩
    · rw [effect_alloc_new (s := withStatus e c v s) fits hd]; exact ⟨rfl, .inr ⟨rfl, rfl⟩⟩
  | paint b col row sx sy =>
    rcases effect_paint_cases b col row sx sy s with
      ⟨hz, q⟩ | ⟨hx, hy, hv, q⟩ | ⟨hx, hy, hv, hr, q⟩ | ⟨hx, hy, hv, hr, q⟩ <;> rw [q]
    · rw [effect_paint_badarg hz]; exact ⟨rfl, .inr ⟨rfl, rfl⟩⟩
    · rw [effect_paint_notile (s := withStatus e c v s) hx hy hv]; exact ⟨rfl, .inr ⟨rfl, rfl⟩⟩
    · rw [effect_paint_oob (s := withStatus e c v s) hx hy hv hr]; exact ⟨rfl, .inr ⟨rfl, rfl⟩⟩
    · rw [effect_paint_inside (s := withStatus e c v s) hx hy hv hr]
      exact ⟨rfl, .inr ⟨rfl, rfl⟩⟩
  | rdpix x y =>
    have hr : fbRead (withStatus e c v s) x.toNat y.toNat = fbRead s x.toNat y.toNat := rfl
    cases h : s.hasPixel x.toNat y.toNat
    · rw [effect_rdpix_outside h, effect_rdpix_outside (s := withStatus e c v s) h]
      exact ⟨rfl, .inr ⟨rfl, rfl⟩⟩
    · rw [effect_rdpix_inside h, effect_rdpix_inside (s := withStatus e c v s) h, hr]
      cases fbRead s x.toNat y.toNat <;> exact ⟨rfl, .inl rfl⟩
  | rdpal b n => exact ⟨rfl, .inl rfl⟩
  | nop | recBegin | fill | replace | materialize | setpal | clrerr => exact ⟨rfl, .inr ⟨rfl, rfl⟩⟩

end Sys2Proof.Machine
end

section
open Sys2Proof Sys2Proof.Machine Sys2Proof.Safety

/-- Settles O53: an error writes `ERRSTAT` and `LAST_CODE` alone; any other command keeps to its row
of R47's table. -/
theorem commandsWriteOnlyTheirFields : Obligations.CommandsWriteOnlyTheirFields := by
  intro i s t h
  obtain rfl := exec_next_iff.1 h
  rcases effect_raises_or_writes i s with ⟨e, raised⟩ | own
  · rw [raised]
    simp
  · exact ⟨own.tile, own.record, own.result, own.canvas, own.dpi, own.pal, own.fb, own.cmdReg⟩

/-- Settles O45: the declared image is the canvas size, the pixels and the DPI values, which the
five commands alone write (R149). -/
theorem snapshotKeptByOtherCommands : Obligations.SnapshotKeptByOtherCommands := by
  intro i s t hi h
  obtain ⟨-, -, -, canvas, dpi, -, fb, -⟩ := commandsWriteOnlyTheirFields i s t h
  have noAlloc : ∀ w h, i ≠ .alloc w h := by rintro _ _ rfl; exact hi
  have noFill : ∀ c, i ≠ .fill c := by rintro _ rfl; exact hi
  have noPaint : ∀ b c r x y, i ≠ .paint b c r x y := by rintro _ _ _ _ _ rfl; exact hi
  have noReplace : ∀ o n, i ≠ .replace o n := by rintro _ _ rfl; exact hi
  have noMaterialize : ∀ x y, i ≠ .materialize x y := by rintro _ _ rfl; exact hi
  exact snapshot_congr (canvas noAlloc) (dpi noMaterialize) (fb noAlloc noFill noPaint noReplace)

/-- Settles O52: the moves of the agents leave `ERRSTAT` or set bits of it, but for the reset event;
so does every word but CLRERR's (R38). -/
theorem stickyBitsStayUntilClrerr : Obligations.StickyBitsStayUntilClrerr := by
  intro s t n hstep noReset noClrerr hbit
  obtain ⟨s₀, ⟨l, rfl⟩, h⟩ := step_cases hstep
  rcases h with ⟨w, hc, rfl⟩ | ⟨-, rfl⟩ | ⟨w, -, rfl⟩ | ⟨_, _, -, -, rfl⟩ | ⟨hr, -⟩
  · exact wordEffect_keeps_sticky (noClrerr w · hc) (s := { s with schedule := l }) hbit
  · exact hbit
  · rcases issue_cases w { s with schedule := l } with ⟨-, e⟩ | ⟨_, -, e⟩ <;> rw [e]
    · exact hbit
    · exact getLsbD_or_of_left hbit _
  · exact hbit
  · exact absurd hr (noReset _)

/-- Settles O54: no command reads the three (R47). -/
theorem statusNeverSteersCommands : Obligations.StatusNeverSteersCommands := by
  intro i s t e c v h
  obtain rfl := exec_next_iff.1 h
  exact ⟨_, exec_eq_effect _ _, effect_withStatus e c v i s⟩

end

section
/-! The block's invariant (spec/10_state.md rules R22 to R38). Its clauses about the stored data are
kept by every command; its clauses about the code follow from how a command ends, whatever stood
before. -/

namespace Sys2Proof.Safety

open Sys2Proof.Machine

/-! ### The clauses about the stored data -/

/-- The clauses of `Inv` that speak of the framebuffer, `RESULT` and the record assembler. -/
structure DataInv (s : State) : Prop where
  canonical  : Memory.wf s.fb = true
  inCanvas   : ∀ p ∈ s.fb, p.1 < s.pixelCount
  capacity   : s.pixelCount ≤ s.params.fbMaxPixels
  resultTop  : s.result.toNat < 2 ^ 24
  nonhexKept : s.recNonhex = true → s.recLen ≠ 0

theorem Inv.data {s : State} (h : Inv s) : DataInv s :=
  ⟨h.canonical, h.inCanvas, h.capacity, h.resultTop, h.nonhexKept⟩

namespace DataInv

variable {s : State} (h : DataInv s)
include h

theorem finish (c : ResultCode) : DataInv (finish c s) :=
  ⟨h.canonical, h.inCanvas, h.capacity, h.resultTop, h.nonhexKept⟩

theorem raise (e : ErrorKind) : DataInv (raise e s) :=
  ⟨h.canonical, h.inCanvas, h.capacity, h.resultTop, h.nonhexKept⟩

theorem withTile (tile : Vector Shade 64) (valid : Bool) :
    DataInv { s with tile := tile, tileValid := valid } :=
  ⟨h.canonical, h.inCanvas, h.capacity, h.resultTop, h.nonhexKept⟩

theorem emptyAssembler : DataInv (emptyAssembler s) :=
  ⟨h.canonical, h.inCanvas, h.capacity, h.resultTop, fun hn => Bool.noConfusion hn⟩

/-- The count has left 0 once a character is kept, and saturation does not bring it back (R24). -/
theorem pushKept (ch : CodeUnit) : DataInv (pushKept ch s) := by
  refine ⟨h.canonical, h.inCanvas, h.capacity, h.resultTop, fun _ hzero => ?_⟩
  have count := congrArg BitVec.toNat hzero
  rw [pushKept_recLen, satSucc_toNat, show (0 : BitVec 6).toNat = 0 from rfl] at count
  omega

/-- A read command widens at most 24 bits (R110, R152, R174). -/
theorem withResult {n : Nat} (v : BitVec n) (hn : n ≤ 24) (d : Nat) :
    DataInv { s with result := v.setWidth 32, draws := d } := by
  refine ⟨h.canonical, h.inCanvas, h.capacity, ?_, h.nonhexKept⟩
  calc (v.setWidth 32).toNat = v.toNat := BitVec.toNat_setWidth_of_le (by omega)
    _ < 2 ^ n := v.isLt
    _ ≤ 2 ^ 24 := Nat.pow_le_pow_right (by decide) hn

theorem latchPixel (p : Pixel) : DataInv (latchPixel p s) := by
  cases p with
  | defined c => exact h.withResult c (by decide) s.draws
  | undef => exact h.withResult (Config.draw s.draws) (by decide) (s.draws + 1)

/-- A new store must be canonical and inside the canvas. -/
theorem withFb {m : Memory} (hwf : Memory.wf m = true) (hin : ∀ p ∈ m, p.1 < s.pixelCount) :
    DataInv { s with fb := m } :=
  ⟨hwf, hin, h.capacity, h.resultTop, h.nonhexKept⟩

/-- A new canvas begins with no stored pixel (R132). -/
theorem newCanvas {w l : Dim} (fits : w.toNat * l.toNat ≤ s.params.fbMaxPixels) :
    DataInv { s with canvasW := w, canvasH := l, fb := [] } :=
  ⟨rfl, fun _ hp => absurd hp List.not_mem_nil, fits, h.resultTop, h.nonhexKept⟩

theorem filled (c : Rgb) : DataInv { s with fb := Memory.filled s.pixelCount c } := by
  refine h.withFb (Memory.filled_wf _ c) fun p hp => ?_
  obtain ⟨a, ha, rfl⟩ := List.mem_map.1 hp
  exact List.mem_range.1 ha

theorem replace (old new : Rgb) : DataInv { s with fb := Memory.replace old new s.fb } := by
  refine h.withFb (Memory.replace_wf old new h.canonical) fun p hp => ?_
  obtain ⟨q, hq, rfl⟩ := List.mem_map.1 hp
  exact h.inCanvas q hq

/-- A painted pixel is one of the rectangle's or was stored before (R139). -/
theorem paintTile {b : Bank} {col row : Dim} {sx sy : Scale}
    (hin : rectInside col row sx sy s.canvasW s.canvasH = true) :
    DataInv (paintTile b col row sx sy s) := by
  have hcells := paintCells_wf (b := b) hin
  have hwf := Memory.overlay_wf hcells h.canonical
  refine h.withFb hwf fun p hp => ?_
  have hread := (Memory.mem_iff_read hwf p.1 p.2).1 hp
  rw [Memory.read_overlay hcells h.canonical] at hread
  cases hcell : Memory.read p.1 (paintCells b col row sx sy s) with
  | undef =>
    rw [hcell, Pixel.over] at hread
    exact h.inCanvas p ((Memory.mem_iff_read h.canonical p.1 p.2).2 hread)
  | defined c =>
    exact paintCells_lt (q := (p.1, c)) hin ((Memory.mem_iff_read hcells p.1 c).2 hcell)

theorem effect (i : Instr) : DataInv (effect i s) := by
  cases i with
  | nop => exact h.finish .ok
  | recBegin => exact h.emptyAssembler.finish .ok
  | recChar ch =>
    cases hs : isStrip ch
    · rw [effect_recChar_kept hs]; exact (h.pushKept ch).finish .ok
    · rw [effect_recChar_strip hs]; exact h.finish .ok
  | recEnd =>
    by_cases hc : recordCode s = .ok
    · rw [effect_recEnd_valid hc]; exact (h.withTile _ true).emptyAssembler.finish .ok
    · rw [effect_recEnd_invalid hc]; exact (h.withTile s.tile false).emptyAssembler.finish _
  | rdshade idx =>
    cases hv : s.tileValid
    · rw [effect_rdshade_invalid hv]; exact h.raise .notile
    · rw [effect_rdshade_valid hv]; exact (h.withResult _ (by decide) s.draws).finish .ok
  | alloc w l =>
    rcases effect_alloc_cases w l s with ⟨_, e⟩ | ⟨_, _, _, e⟩ | ⟨fits, _, e⟩ <;> rw [e]
    · exact h.raise .baddim
    · exact h.finish .ok
    · exact (h.newCanvas fits).finish .ok
  | fill c => exact (h.filled c).finish .ok
  | paint b col row sx sy =>
    rcases effect_paint_cases b col row sx sy s with
      ⟨_, e⟩ | ⟨_, _, _, e⟩ | ⟨_, _, _, _, e⟩ | ⟨_, _, _, hin, e⟩ <;> rw [e]
    · exact h.raise .badarg
    · exact h.raise .notile
    · exact h.raise .oob
    · exact (h.paintTile hin).finish .ok
  | replace old new => exact (h.replace old new).finish .ok
  | materialize x y =>
    exact ⟨h.canonical, h.inCanvas, h.capacity, h.resultTop, h.nonhexKept⟩
  | rdpix x y =>
    rcases effect_rdpix_cases x y s with ⟨_, e⟩ | ⟨_, e⟩ <;> rw [e]
    · exact h.raise .oob
    · exact (h.latchPixel _).finish .ok
  | setpal b n c => exact ⟨h.canonical, h.inCanvas, h.capacity, h.resultTop, h.nonhexKept⟩
  | rdpal b n => exact (h.withResult _ (by decide) s.draws).finish .ok
  | clrerr m => exact ⟨h.canonical, h.inCanvas, h.capacity, h.resultTop, h.nonhexKept⟩

theorem wordEffect (w : CmdWord) : DataInv (wordEffect w s) := by
  cases hd : decode w with
  | ok i => rw [wordEffect_of_ok hd]; exact h.effect i
  | error r => rw [wordEffect_of_error hd]; exact h.raise .illegal

end DataInv

/-! ### The clauses about the code (R211, R213) -/

/-- Every word ends with one of the codes of rule R211. -/
theorem wordEffect_code_le (w : CmdWord) (s : State) : (wordEffect w s).lastCode.toNat ≤ 7 := by
  cases hd : decode w with
  | ok i =>
    obtain ⟨c, hc⟩ := effect_code i s
    rw [wordEffect_of_ok hd, hc]
    exact code_le_seven c
  | error r => rw [wordEffect_of_error hd, raise_lastCode]; exact code_le_seven _

theorem errorCode_ge_three (e : ErrorKind) : 3 ≤ e.code.bits.toNat := by
  cases e <;> decide

theorem errorCode_injective {e e' : ErrorKind} (h : e.code.bits = e'.code.bits) : e = e' := by
  revert h
  cases e <;> cases e' <;> decide

/-- A bit that is set is under the mask it was set with. -/
theorem or_and_self {n : Nat} (a b : BitVec n) : (a ||| b) &&& b = b := by
  apply BitVec.eq_of_getLsbD_eq
  intro k _
  rw [BitVec.getLsbD_and, BitVec.getLsbD_or]
  cases a.getLsbD k <;> cases b.getLsbD k <;> rfl

/-- The code of an error comes from its `raise`, which has set its bit. -/
theorem wordEffect_sticky (w : CmdWord) (s : State) (e : ErrorKind)
    (h : (wordEffect w s).lastCode = e.code.bits) :
    (wordEffect w s).errstat &&& e.stickyBit = e.stickyBit := by
  rcases wordEffect_code_lt_three_or_raise w s with low | ⟨e', raised⟩
  · have := errorCode_ge_three e
    rw [h] at low
    omega
  · rw [raised, raise_lastCode] at h
    obtain rfl := errorCode_injective h
    rw [raised, raise_errstat]
    exact or_and_self _ _

/-! ### The invariant -/

/-- What a word leaves meets the invariant when the stored data did before it. -/
theorem inv_wordEffect {s : State} (h : DataInv s) (w : CmdWord) : Inv (wordEffect w s) where
  canonical := (h.wordEffect w).canonical
  inCanvas := (h.wordEffect w).inCanvas
  capacity := (h.wordEffect w).capacity
  codeRange := wordEffect_code_le w s
  resultTop := (h.wordEffect w).resultTop
  nonhexKept := (h.wordEffect w).nonhexKept
  sticky := wordEffect_sticky w s

/-- The invariant does not speak of the command register, the schedule or the host's reads. -/
theorem Inv.withAgents {s : State} (h : Inv s) (c : Option CmdWord) (l : List Event)
    (o : List HostWord) : Inv (withAgents c l o s) :=
  ⟨h.canonical, h.inCanvas, h.capacity, h.codeRange, h.resultTop, h.nonhexKept, h.sticky⟩

/-- A sticky bit more does no harm. -/
theorem Inv.withErrstat_or {s : State} (h : Inv s) (b : BitVec 6) :
    Inv { s with errstat := s.errstat ||| b } where
  canonical := h.canonical
  inCanvas := h.inCanvas
  capacity := h.capacity
  codeRange := h.codeRange
  resultTop := h.resultTop
  nonhexKept := h.nonhexKept
  sticky e hc := by
    have set := h.sticky e hc
    apply BitVec.eq_of_getLsbD_eq
    intro k _
    have bit := congrArg (fun v => v.getLsbD k) set
    simp only [BitVec.getLsbD_and, BitVec.getLsbD_or] at bit ⊢
    rw [Bool.and_or_distrib_right, bit]
    cases e.stickyBit.getLsbD k <;> simp

theorem Inv.issue {s : State} (h : Inv s) (w : CmdWord) : Inv (issue w s) := by
  rcases issue_cases w s with ⟨_, e⟩ | ⟨_, _, e⟩ <;> rw [e]
  · exact h.withAgents (some w) s.schedule s.observed
  · exact h.withErrstat_or overrunBit

/-- After reset no pixel is stored, and code 0 is no error's. -/
theorem inv_resetWith (p : Params) : Inv (State.resetWith p) where
  canonical := rfl
  inCanvas _ hp := absurd hp List.not_mem_nil
  capacity := Nat.zero_le _
  codeRange := Nat.zero_le _
  resultTop := Nat.two_pow_pos 24
  nonhexKept hn := Bool.noConfusion hn
  sticky e hc := by
    have := errorCode_ge_three e
    rw [← hc, show (State.resetWith p).lastCode.toNat = 0 from rfl] at this
    omega

theorem inv_resetBlock (s : State) : Inv (resetBlock s) :=
  have h := inv_resetWith s.params
  ⟨h.canonical, h.inCanvas, h.capacity, h.codeRange, h.resultTop, h.nonhexKept, h.sticky⟩

end Sys2Proof.Safety
end

section
open Sys2Proof Sys2Proof.Machine Sys2Proof.Safety

/-- Settles O23: a step executes a word, or makes a move of the host or the platform; each keeps the
invariant (R217). -/
theorem everyStepKeepsInvariant : Obligations.EveryStepKeepsInvariant := by
  intro s t h hstep
  obtain ⟨s₀, ⟨l, rfl⟩, hmove⟩ := step_cases hstep
  have h₀ : Inv { s with schedule := l } := h.withAgents s.cmdReg l s.observed
  rcases hmove with ⟨w, -, rfl⟩ | ⟨-, rfl⟩ | ⟨w, -, rfl⟩ | ⟨_, v, -, -, rfl⟩ | ⟨-, rfl⟩
  · exact (inv_wordEffect h₀.data w).withAgents none _ _
  · exact h₀
  · exact h₀.issue w
  · exact h₀.withAgents _ _ (v :: s.observed)
  · exact inv_resetBlock _

/-- Settles O22: the reset state by its fields (R48). -/
theorem resetMeetsInvariant : Obligations.ResetMeetsInvariant := inv_resetWith

end

section
/-! Schedules (spec/10_state.md rules R39 to R41, spec/60_exceptions.md rule R217): one step for
each kind of scheduled move, and where a schedule leads that is a waiting host's, that gives each
command its turn, or that holds issues and reads alone. -/

namespace Sys2Proof.Machine

/-! ### One step for each kind of move -/

variable {s : State} {w : CmdWord} {rest : List Event}

/-- An issue to an idle block is taken (R39). -/
theorem step_issue_idle (hs : s.schedule = .issue w :: rest) (hc : s.cmdReg = none) :
    step s = .next { s with schedule := rest, cmdReg := some w } := by
  rw [step_scheduled hs, move, issue_idle (s := { s with schedule := rest }) hc]

theorem step_readReg {n : Nat} (hs : s.schedule = .readReg n :: rest) (hn : n < 7) :
    ∃ v, step s = .next { s with schedule := rest, observed := v :: s.observed } := by
  obtain ⟨v, -, hv⟩ := readReg_of_lt hn { s with schedule := rest }
  exact ⟨v, by rw [step_scheduled hs, move, hv]⟩

theorem step_reset (hs : s.schedule = .reset :: rest) :
    step s = .next (resetBlock { s with schedule := rest }) := step_scheduled hs

/-- The sequencer's step on a pending word, with nothing scheduled. -/
theorem step_pending (hs : s.schedule = []) (hc : s.cmdReg = some w) :
    step s = .next { wordEffect w s with cmdReg := none } := by
  rw [step_unscheduled hs, sequencerTurn_busy hc]

/-! ### OVERRUN (R215) -/

theorem stickyBit_overrun (e : ErrorKind) : e.stickyBit.getLsbD 5 = false := by
  cases e <;> rfl

/-- No word sets OVERRUN. -/
theorem overrun_of_wordEffect (w : CmdWord) {s : State}
    (h : (wordEffect w s).errstat.getLsbD 5 = true) : s.errstat.getLsbD 5 = true := by
  by_cases hw : ∃ m, decode w = .ok (.clrerr m)
  · obtain ⟨m, hm⟩ := hw
    rw [wordEffect_of_ok hm, effect_clrerr, finish_errstat, getLsbD_clear _ _ (by decide),
      Bool.and_eq_true] at h
    exact h.1
  · rcases wordEffect_errstat_cases (not_exists.1 hw) s with e | ⟨k, e⟩ <;> rw [e] at h
    · exact h
    · rwa [BitVec.getLsbD_or, stickyBit_overrun, Bool.or_false] at h

theorem sequencerTurn_overrun {s t : State} (h : sequencerTurn s = .next t)
    (ht : t.errstat.getLsbD 5 = true) : s.errstat.getLsbD 5 = true := by
  cases hc : s.cmdReg with
  | none =>
    rw [sequencerTurn_idle hc] at h
    rwa [Host.Outcome.next.inj h]
  | some w =>
    rw [sequencerTurn_busy hc] at h
    obtain rfl := Host.Outcome.next.inj h
    exact overrun_of_wordEffect w ht

theorem wordEffect_schedule (w : CmdWord) (s : State) : (wordEffect w s).schedule = s.schedule := by
  cases hd : decode w with
  | ok i =>
    obtain ⟨-, -, hs, -⟩ := effect_keeps_agents i s
    rw [wordEffect_of_ok hd, hs]
  | error r => rw [wordEffect_of_error hd, raise_schedule]

/-- After the sequencer's turn the block is idle, and the schedule is as it was. -/
theorem sequencerTurn_frame {s t : State} (h : sequencerTurn s = .next t) :
    t.cmdReg = none ∧ t.schedule = s.schedule := by
  cases hc : s.cmdReg with
  | none =>
    rw [sequencerTurn_idle hc] at h
    obtain rfl := Host.Outcome.next.inj h
    exact ⟨hc, rfl⟩
  | some w =>
    rw [sequencerTurn_busy hc] at h
    obtain rfl := Host.Outcome.next.inj h
    exact ⟨rfl, wordEffect_schedule w s⟩

/-! ### A command and its turn (R69) -/

/-- The turn after an accepted issue does what the host's `exec` does (R190). -/
theorem sequencerTurn_issue (hc : s.cmdReg = none) (i : Instr) :
    sequencerTurn (issue (encode i) s) = .next (effect i s) := by
  rw [← hostExec_eq_effect (decode_encode i) hc, hostExec, issue_idle hc, settle_busy rfl,
    sequencerTurn_busy rfl]

end Sys2Proof.Machine

namespace Sys2Proof.Safety

open Sys2Proof.Machine

/-! ### Where schedules lead -/

/-- A host that waits goes on waiting, and its moves set no OVERRUN (R245). -/
theorem waitsForIdle_step {s t : State} (hw : waitsForIdle s.busy s.schedule = true)
    (h : step s = .next t) :
    waitsForIdle t.busy t.schedule = true ∧
      (t.errstat.getLsbD 5 = true → s.errstat.getLsbD 5 = true) := by
  cases hs : s.schedule with
  | nil =>
    rw [step_unscheduled hs] at h
    rw [(sequencerTurn_frame h).2, hs]
    exact ⟨rfl, sequencerTurn_overrun h⟩
  | cons e rest =>
    rw [hs] at hw
    cases e with
    | issue w =>
      simp only [waitsForIdle, Bool.and_eq_true, Bool.not_eq_true', State.busy,
        Option.isSome_eq_false_iff, Option.isNone_iff_eq_none] at hw
      obtain ⟨hc, hrest⟩ := hw
      rw [step_issue_idle hs hc] at h
      obtain rfl := Host.Outcome.next.inj h
      exact ⟨hrest, id⟩
    | readReg n =>
      rw [step_scheduled hs] at h
      obtain ⟨v, -, rfl⟩ := readReg_next h
      exact ⟨hw, id⟩
    | sequencer =>
      rw [step_scheduled hs] at h
      obtain ⟨idle, kept⟩ := sequencerTurn_frame h
      rw [State.busy, idle, kept]
      exact ⟨hw, sequencerTurn_overrun (s := { s with schedule := rest }) h⟩
    | reset =>
      rw [step_reset hs] at h
      obtain rfl := Host.Outcome.next.inj h
      refine ⟨hw, fun set => ?_⟩
      rw [resetBlock_errstat, show (State.resetWith s.params).errstat = 0 from rfl] at set
      exact absurd set (by decide)

/-- An issue to an idle block and the sequencer's turn are the command's effect. -/
theorem run_issue_turn {s : State} (hc : s.cmdReg = none) (i : Instr) (rest : List Event)
    (k : Nat) :
    run (k + 2) { s with schedule := .issue (encode i) :: .sequencer :: rest } =
      run k { effect i s with schedule := rest } := by
  have hturn : step { s with schedule := .sequencer :: rest, cmdReg := some (encode i) } =
      .next { effect i s with schedule := rest } := calc
    step { s with schedule := .sequencer :: rest, cmdReg := some (encode i) }
      = sequencerTurn { s with schedule := rest, cmdReg := some (encode i) } :=
        step_sequencer { s with cmdReg := some (encode i) } rest
    _ = sequencerTurn (issue (encode i) { s with schedule := rest }) := by
        rw [issue_idle (s := { s with schedule := rest }) hc]
    _ = .next { effect i s with schedule := rest } := by
        rw [sequencerTurn_issue (s := { s with schedule := rest }) hc, effect_withSchedule]
  calc run (k + 2) { s with schedule := .issue (encode i) :: .sequencer :: rest }
      = run (k + 1) { s with schedule := .sequencer :: rest, cmdReg := some (encode i) } :=
        run_succ_of_step
          (step_issue_idle (s := { s with schedule := .issue (encode i) :: _ }) rfl hc) (k + 1)
    _ = run k { effect i s with schedule := rest } := run_succ_of_step hturn k

/-- Commands with their turns are their effects, one after another (R69). -/
theorem run_commands (is : List Instr) {s : State} (hc : s.cmdReg = none) :
    run (2 * is.length)
        { s with schedule := is.flatMap fun i => [.issue (encode i), .sequencer] } =
      .next (is.foldl (fun u i => effect i u) { s with schedule := [] }) := by
  induction is generalizing s with
  | nil => rfl
  | cons i is ih =>
    obtain ⟨idle, -, -, -⟩ := effect_keeps_agents i s
    rw [List.flatMap_cons, List.foldl_cons, List.length_cons, Nat.mul_succ, effect_withSchedule,
      ← ih (idle.trans hc)]
    exact run_issue_turn hc i _ _

/-- Issues and reads leave a pending command pending (R215, R46). -/
theorem run_issues_reads {s : State} {w : CmdWord} (hc : s.cmdReg = some w)
    (hs : ∀ e ∈ s.schedule, (∃ v, e = .issue v) ∨ ∃ n, n < 7 ∧ e = .readReg n) :
    ∃ u, run s.schedule.length s = .next u ∧ u.cmdReg = some w ∧ u.schedule = [] := by
  induction hl : s.schedule generalizing s with
  | nil => exact ⟨s, rfl, hc, hl⟩
  | cons e rest ih =>
    rw [hl] at hs
    obtain ⟨he, hrest⟩ := List.forall_mem_cons.1 hs
    rcases he with ⟨v, rfl⟩ | ⟨n, hn, rfl⟩
    · rw [List.length_cons, run_succ_of_step (step_issue_busy hl hc)]
      exact ih hc hrest rfl
    · obtain ⟨v, hstep⟩ := step_readReg hl hn
      rw [List.length_cons, run_succ_of_step hstep]
      exact ih hc hrest rfl

end Sys2Proof.Safety
end

section
open Sys2Proof Sys2Proof.Machine Sys2Proof.Safety

/-- Settles O9: with nothing pending the sequencer has no step, and its turn keeps the state
(R41). -/
theorem idleBlockKeepsState : Obligations.IdleBlockKeepsState := by
  intro s hc
  refine ⟨by rw [sequencerStep, hc], fun hs => ?_⟩
  rw [step_unscheduled hs, sequencerTurn_idle hc]

/-- Settles O10: the sequencer's step on any word, with the code that word ends with (R210,
R211). -/
theorem everyCommandCompletes : Obligations.EveryCommandCompletes := fun s w hc hs =>
  ⟨_, step_pending hs hc, rfl, wordEffect_code_le w s⟩

/-- Settles O11: the two cases of an issue (R39). -/
theorem issueTakesOrOverruns : Obligations.IssueTakesOrOverruns := fun _ _ _ hs =>
  ⟨step_issue_idle hs, fun _ => step_issue_busy hs⟩

/-- Settles O13: the waiting and the bound on OVERRUN are kept by every step (R245). -/
theorem waitingHostNeverOverruns : Obligations.WaitingHostNeverOverruns := by
  intro k
  induction k with
  | zero =>
    intro s t _ h
    obtain rfl := Host.Outcome.next.inj h
    exact id
  | succ k ih =>
    intro s t hw h
    rw [run] at h
    split at h
    · next u hu =>
      obtain ⟨waits, overrun⟩ := waitsForIdle_step hw hu
      exact overrun ∘ ih u t waits h
    · cases h
    · cases h

/-- Settles O14: each issue and turn is its command's effect (R69). -/
theorem commandsRunInIssueOrder : Obligations.CommandsRunInIssueOrder := fun is _ hc =>
  ⟨_, run_commands is hc, rfl⟩

/-- Settles O15: the scheduled moves leave the word pending, and the next step is the sequencer's
(R41, R252). -/
theorem pendingCommandIsExecuted : Obligations.PendingCommandIsExecuted := by
  intro s w hc hs
  obtain ⟨u, hrun, pending, empty⟩ := run_issues_reads hc hs
  exact ⟨u, _, hrun, pending, empty, step_pending empty pending, rfl⟩

/-- Settles O21: the reset move (R240). -/
theorem resetEventRestoresResetValues : Obligations.ResetEventRestoresResetValues :=
  fun _ _ hs => step_reset hs

end

section
/-! A record's result depends on its kept characters alone (spec/40_tile_decoder.md rule R108). -/

namespace Sys2Proof.Machine

variable {r r' : List CodeUnit} (h : keptChars r = keptChars r') (s s' : State)
include h

/-- The count and the digit test are those of the kept characters, and they decide the code. -/
theorem recordCode_assembled_congr :
    recordCode (assembled r s) = recordCode (assembled r' s') := by
  have len : (assembled r s).recLen = (assembled r' s').recLen := by
    apply BitVec.eq_of_toNat_eq
    rw [assembled_recLen, assembled_recLen, h]
  rw [recordCode, recordCode, len, assembled_recNonhex, assembled_recNonhex, h]

/-- A record that ends valid has 32 kept characters, whose nibbles fill the assembler. -/
theorem assembled_recNib_congr (hok : recordCode (assembled r s) = .ok) :
    (assembled r s).recNib = (assembled r' s').recNib := by
  rcases recordCode_cases (assembled r s) with ⟨_, e⟩ | ⟨_, _, e⟩ | ⟨hlen, _, _⟩
  · cases e.symm.trans hok
  · cases e.symm.trans hok
  · have kept := (assembled_recLen_eq_iff r s).1 hlen
    rw [assembled_recNib_eq kept, assembled_recNib_eq (h ▸ kept), h]

end Sys2Proof.Machine
end

section
open Sys2Proof.Machine

/-- Settles O29: REC_END reads the code's count and digit test and, for a valid record, the 32
nibbles, and nothing else of the block (R108). -/
theorem recordDecodeIsPure : Obligations.RecordDecodeIsPure := by
  intro s s' r r' hs hs' h
  have hcode := recordCode_assembled_congr h s s'
  rw [hostRecord_eq r hs, hostRecord_eq r' hs']
  by_cases hok : recordCode (assembled r s) = .ok
  · have hnib := assembled_recNib_congr h s s' hok
    rw [effect_recEnd_valid hok, effect_recEnd_valid (hcode ▸ hok), hnib]
    exact ⟨rfl, rfl, fun _ => rfl⟩
  · rw [effect_recEnd_invalid hok, effect_recEnd_invalid (hcode ▸ hok), hcode]
    refine ⟨rfl, rfl, fun hzero => absurd hzero ?_⟩
    rw [hcode] at hok
    revert hok
    dsimp only [finish_lastCode]
    cases recordCode (assembled r' s') <;> decide

end

section
/-! The palette swap (spec/41_canvas_compositor.md rules R142 to R146): a sequence of REPLACEs as
one recolouring of the store, and what the four REPLACEs of PALSWAP do to a palette's colours. -/

namespace Sys2Proof.Machine

open Sys2Proof.Safety

/-! ### A sequence of REPLACEs -/

/-- What a sequence of REPLACEs makes of a colour (R142). -/
def recolour (l : List (Rgb × Rgb)) (v : Rgb) : Rgb :=
  l.foldl (fun v p => replaceColour p.1 p.2 v) v

/-- The store with every stored pixel recoloured. -/
def Memory.recoloured (l : List (Rgb × Rgb)) (m : Memory) : Memory :=
  m.map fun q => (q.1, recolour l q.2)

theorem recolour_append (l l' : List (Rgb × Rgb)) (v : Rgb) :
    recolour (l ++ l') v = recolour l' (recolour l v) := List.foldl_append ..

theorem recolour_cons (p : Rgb × Rgb) (l : List (Rgb × Rgb)) (v : Rgb) :
    recolour (p :: l) v = recolour l (replaceColour p.1 p.2 v) := rfl

/-- A colour that no REPLACE looks for stays. -/
theorem recolour_of_forall_ne {l : List (Rgb × Rgb)} {v : Rgb} (h : ∀ p ∈ l, v ≠ p.1) :
    recolour l v = v := by
  induction l with
  | nil => rfl
  | cons p l ih =>
    obtain ⟨hp, hl⟩ := List.forall_mem_cons.1 h
    rw [recolour_cons, replaceColour, if_neg hp, ih hl]

/-- A sequence of REPLACEs recolours the stored pixels and writes nothing else but `LAST_CODE`. -/
theorem hostExecAll_replaces (l : List (Rgb × Rgb)) {s : State} (hc : s.cmdReg = none) :
    hostExecAll (l.map fun p => .replace p.1 p.2) s =
      { s with
        fb := Memory.recoloured l s.fb
        lastCode := if l.isEmpty then s.lastCode else 0 } := by
  induction l generalizing s with
  | nil =>
    rw [show Memory.recoloured [] s.fb = s.fb from List.map_id s.fb]
    rfl
  | cons p l ih =>
    rw [List.map_cons, hostExecAll_cons, hostExec_eq_effect (decode_encode _) hc,
      ih (s := effect (.replace p.1 p.2) s) hc, effect_replace]
    simp only [finish, Memory.recoloured, Memory.replace, List.map_map]
    cases l <;> rfl

/-! ### PALSWAP (R143) -/

/-- The colour pairs of PALSWAP's REPLACEs. -/
def swapPairs (A B : Palette) : List (Rgb × Rgb) :=
  shadeIndices.map fun i => (paletteEntry A i, paletteEntry B i)

theorem palswapCommands_eq (A B : Palette) :
    palswapCommands A B = (swapPairs A B).map fun p => .replace p.1 p.2 := rfl

theorem hostExecAll_palswap (A B : Palette) {s : State} (hc : s.cmdReg = none) :
    hostExecAll (palswapCommands A B) s =
      { s with fb := Memory.recoloured (swapPairs A B) s.fb, lastCode := 0 } := by
  rw [palswapCommands_eq, hostExecAll_replaces _ hc]
  rfl

/-- Under SWAP the REPLACEs before the `k`-th leave `Ak`, that one makes it `Bk`, and those after it
leave `Bk` (R143). -/
theorem recolour_swapPairs {A B : Palette} (h : swapOk A B) (k : Shade) :
    recolour (swapPairs A B) (paletteEntry A k) = paletteEntry B k := by
  obtain ⟨distinct, later⟩ := h
  have hk : k ∈ shadeIndices := by revert k; decide
  have rising : shadeIndices.Pairwise (· < ·) := by decide
  obtain ⟨before, after, hsplit⟩ := List.append_of_mem hk
  rw [hsplit, List.pairwise_append, List.pairwise_cons] at rising
  obtain ⟨-, ⟨hafter, -⟩, hbefore⟩ := rising
  rw [swapPairs, hsplit, List.map_append, List.map_cons, recolour_append, recolour_cons,
    recolour_of_forall_ne (v := paletteEntry A k), replaceColour, if_pos rfl, recolour_of_forall_ne]
  · intro p hp
    obtain ⟨n, hn, rfl⟩ := List.mem_map.1 hp
    exact later k n (hafter n hn)
  · intro p hp
    obtain ⟨n, hn, rfl⟩ := List.mem_map.1 hp
    exact distinct k n (BitVec.ne_of_lt (hbefore n hn k List.mem_cons_self)).symm

/-! ### A canvas painted from one palette -/

theorem fbRead_palswap (A B : Palette) {s : State} (hc : s.cmdReg = none) {x y : Nat} {v : Rgb}
    (h : fbRead s x y = .defined v) :
    fbRead (hostExecAll (palswapCommands A B) s) x y = .defined (recolour (swapPairs A B) v) := by
  rw [palswapCommands_eq, fbRead_hostExecAll_replaces _ hc, h, foldl_replaced_defined]
  rfl

/-- Every stored pixel exists, so it has one of the palette's colours. -/
theorem exists_shade_of_mem {A : Palette} {s : State} (hp : paintedFrom A s)
    (hwf : Memory.wf s.fb = true) (hin : ∀ p ∈ s.fb, p.1 < s.pixelCount) {p : Nat × Rgb}
    (hmem : p ∈ s.fb) : ∃ k, p.2 = paletteEntry A k := by
  obtain ⟨k, hk⟩ := hp _ _ (hasPixel_of_lt_pixelCount (hin p hmem))
  have hread : Memory.read p.1 s.fb = .defined p.2 := (Memory.mem_iff_read hwf _ _).1 hmem
  rw [fbRead, linearAddr_divMod, hread] at hk
  exact ⟨k, Pixel.defined.inj hk⟩

/-- PALSWAP there and back (R144). -/
theorem palswap_palswap {A B : Palette} {s : State} (hc : s.cmdReg = none) (hAB : swapOk A B)
    (hBA : swapOk B A) (hp : paintedFrom A s) (hwf : Memory.wf s.fb = true)
    (hin : ∀ p ∈ s.fb, p.1 < s.pixelCount) :
    hostExecAll (palswapCommands B A) (hostExecAll (palswapCommands A B) s) =
      { s with lastCode := 0 } := by
  have restored : Memory.recoloured (swapPairs B A) (Memory.recoloured (swapPairs A B) s.fb) =
      s.fb := by
    rw [Memory.recoloured, Memory.recoloured, List.map_map]
    refine (List.map_congr_left fun q hq => ?_).trans (List.map_id s.fb)
    obtain ⟨k, hk⟩ := exists_shade_of_mem hp hwf hin hq
    have back : recolour (swapPairs B A) (recolour (swapPairs A B) q.2) = q.2 := by
      rw [hk, recolour_swapPairs hAB, recolour_swapPairs hBA]
    exact congrArg (Prod.mk q.1) back
  have there := hostExecAll_palswap A B hc
  have idle : (hostExecAll (palswapCommands A B) s).cmdReg = none := by rw [there]; exact hc
  rw [hostExecAll_palswap B A idle, there]
  simp only [restored]

/-! ### The toggle (R200, R248) -/

theorem paletteToggle_of_swapOk {c : HostConfig} {back : Bool}
    (hv : hostParamsValid c.params = true)
    (h : swapOk c.shown c.toggled.shown) (hback : back = true → swapOk c.toggled.shown c.shown)
    (s : State) :
    paletteToggle c back s =
      .toggled c.toggled (hostExecAll (palswapCommands c.shown c.toggled.shown) s) := by
  rw [paletteToggle, if_pos hv, if_pos ((swapCheck_iff c back).2 ⟨h, hback⟩)]

theorem paletteToggle_of_not_swapOk {c : HostConfig} {back : Bool}
    (hv : hostParamsValid c.params = true)
    (h : ¬(swapOk c.shown c.toggled.shown ∧ (back = true → swapOk c.toggled.shown c.shown)))
    (s : State) : paletteToggle c back s = .stopped .swapConditionFails s := by
  rw [paletteToggle, if_pos hv, if_neg (mt (swapCheck_iff c back).1 h)]

end Sys2Proof.Machine
end

section
open Sys2Proof Sys2Proof.Machine Sys2Proof.Safety

/-- Settles O39: each REPLACE acts on the pixel by itself, and SWAP takes each colour through to its
counterpart (R143). -/
theorem paletteSwapRetintsCanvas : Obligations.PaletteSwapRetintsCanvas := by
  intro s A B hc hswap _ t
  refine ⟨fun x y k _ h => ?_, ?_⟩
  · exact (fbRead_palswap A B hc h).trans (congrArg _ (recolour_swapPairs hswap k))
  · rw [show t = _ from hostExecAll_palswap A B hc]

/-- Settles O40: the stored pixels are the painted ones, and both recolourings of each cancel
(R144). -/
theorem paletteSwapRoundTrip : Obligations.PaletteSwapRoundTrip := by
  intro s A B hc hAB hBA hp hwf hin
  rw [hostExecAll_append, palswap_palswap hc hAB hBA hp hwf hin]

/-- Settles O41: `B0` is `A1`, so SWAP fails; and the four REPLACEs carry every colour of the
palette on to white (R146). -/
theorem rotatedPaletteCollapses : Obligations.RotatedPaletteCollapses := by
  intro s hc A B
  refine ⟨fun h => h.2 0 1 (by decide) rfl, fun hp x y hxy => ?_⟩
  obtain ⟨k, hk⟩ := hp x y hxy
  have white : ∀ k : Shade, recolour (swapPairs A B) (paletteEntry A k) = 0xFFFFFF := by decide
  exact (fbRead_palswap A B hc hk).trans (congrArg _ (white k))

/-- Settles O42: the check of R248 is SWAP there and, for a host that toggles back, SWAP back; with
both the second toggle restores the canvas (R144). -/
theorem toggleChecksItsPalettes : Obligations.ToggleChecksItsPalettes := by
  intro c back s hc hv other A B
  have hother : other.toggled = c := c.toggled_toggled
  refine ⟨fun hAB hback => ⟨_, paletteToggle_of_swapOk hv hAB hback s, rfl, ?_⟩,
    fun h => paletteToggle_of_not_swapOk hv h s⟩
  intro hb hp hwf hin again
  have shown : other.toggled.shown = A := congrArg HostConfig.shown hother
  rw [paletteToggle_of_swapOk (c := other) hv (shown ▸ hback hb) (fun _ => shown ▸ hAB), shown,
    hother]
  exact congrArg _ (palswap_palswap hc hAB (hback hb) hp hwf hin)

end

section
/-! The read-out pixel by pixel, and the records that the host's counting pass counts among all
lines of a blob (spec/43_host_pipeline.md rules R191 to R194 and R199). -/

namespace Sys2Proof.Machine

open Sys2Proof.Safety

/-! ### Read-out (R199) -/

theorem exists_getElem?_of_forall₂ {α β : Type} {R : α → β → Prop} {l : List α} {l' : List β}
    (h : List.Forall₂ R l l') {n : Nat} {a : α} (hn : l[n]? = some a) :
    ∃ b, l'[n]? = some b ∧ R a b := by
  obtain ⟨hlt, rfl⟩ := List.getElem?_eq_some_iff.1 hn
  have hlt' : n < l'.length := h.length_eq ▸ hlt
  exact ⟨l'[n], List.getElem?_eq_getElem hlt', h.get hlt hlt'⟩

/-- The read-out delivers one word for each pixel, at the pixel's linear address. -/
theorem readOut_cases {s : State} (hc : s.cmdReg = none) :
    (readOut s).1.pixels.length = s.pixelCount ∧
      (∀ x y, s.hasPixel x y = true → ∃ w,
        (readOut s).1.pixels[y * s.canvasW.toNat + x]? = some w ∧ (fbRead s x y).readsAs w) ∧
      ∃ r code d, (readOut s).2 = withReadResult r code d s := by
  obtain ⟨words, frame⟩ := hostReadPixels_cases decode_encode
    (pixelCoords s.canvasW.toNat s.canvasH.toNat) hc
    fun p hp => (hasPixel_iff s _ _).2 (mem_pixelCoords.1 hp)
  refine ⟨words.length_eq.symm.trans (length_pixelCoords _ _), fun x y hxy => ?_, frame⟩
  obtain ⟨hx, hy⟩ := (hasPixel_iff s x y).1 hxy
  exact exists_getElem?_of_forall₂ words (getElem?_pixelCoords hx hy)

/-! ### Records and lines (R192 to R194) -/

theorem forgetRecord_decoded (s : State) (nib : Vector Nibble 32) (tile : Vector Shade 64) :
    forgetRecord { forgetRecord s with recNib := nib, tile := tile, tileValid := true } =
      forgetRecord s := rfl

/-- A record changes nothing but the tile unpacker and `LAST_CODE`. -/
theorem hostRecord_forgetRecord (r : List CodeUnit) {s : State} (hs : s.cmdReg = none) :
    forgetRecord (hostRecord r s).2 = forgetRecord s := by
  cases hv : validRecord r with
  | true =>
    obtain ⟨tile, htile⟩ := Option.isSome_iff_exists.1 hv
    rw [hostRecord_of_sourceDecode htile hs, forgetRecord_decoded]
  | false => exact (hostRecord_of_invalid hv hs).2

theorem countingPass_forgetRecord (rs : List (List CodeUnit)) {s : State} (hs : s.cmdReg = none) :
    forgetRecord (countingPass rs s).2 = forgetRecord s := by
  induction rs generalizing s with
  | nil => rfl
  | cons r rs ih => exact (ih (hostRecord_idle r s)).trans (hostRecord_forgetRecord r hs)

theorem countingPass_count (rs : List (List CodeUnit)) {s : State} (hs : s.cmdReg = none) :
    (countingPass rs s).1 = (rs.filterMap sourceDecode).length := by
  rw [(keepingPass_eq rs hs).2, List.length_filterMap_eq_countP, List.countP_eq_length_filter]
  rfl

/-- A comment begins with a character that is kept and is no digit. -/
theorem head_of_isCommentLine {l : List CodeUnit} (h : isCommentLine l = true) :
    ∃ a rest, l = a :: rest ∧ isStrip a = false ∧ isHex a = false := by
  have kinds : ∀ a : CodeUnit, a ∈ [0x21, 0x23, 0x7B, 0x2F] →
      isStrip a = false ∧ isHex a = false := by decide
  rw [isCommentLine_eq] at h
  cases l with
  | nil => cases h
  | cons a rest =>
    refine ⟨a, rest, rfl, kinds a ?_⟩
    simp only [List.head?_cons, List.take_succ_cons, Bool.or_eq_true, beq_iff_eq,
      Option.some.injEq, List.cons.injEq] at h
    simp only [List.mem_cons, List.not_mem_nil, or_false]
    tauto

/-- The lines that the host skips decode to nothing, so sending them would count nothing (R192). -/
theorem sourceDecode_of_not_candidate {l : List CodeUnit} (h : isCandidate l = false) :
    sourceDecode l = none := by
  rw [isCandidate, Bool.and_eq_false_iff, Bool.not_eq_false', Bool.not_eq_false'] at h
  rcases h with blank | comment
  · have none_kept : keptChars l = [] :=
      List.filter_eq_nil_iff.2 fun ch hch => by simp [List.all_eq_true.1 blank ch hch]
    exact sourceDecode_badlen (by rw [none_kept]; decide)
  · obtain ⟨a, rest, rfl, hstrip, hhex⟩ := head_of_isCommentLine comment
    by_cases hlen : (keptChars (a :: rest)).length = 32
    · exact sourceDecode_nonhex hlen (by simp [keptChars, hstrip, hhex])
    · exact sourceDecode_badlen hlen

theorem filterMap_candidates (blob : List CodeUnit) :
    (candidates blob).filterMap sourceDecode = (splitLines blob).filterMap sourceDecode := by
  rw [candidates, List.filterMap_filter]
  refine List.filterMap_congr fun l _ => ?_
  cases h : isCandidate l with
  | true => rfl
  | false => exact (sourceDecode_of_not_candidate h).symm

end Sys2Proof.Machine
end

section
open Sys2Proof Sys2Proof.Machine Sys2Proof.Safety

/-- Settles O57: the words of the read-out stand at the pixels' linear addresses, and RDPIX moves
nothing but `RESULT`, `LAST_CODE` and the draw counter (R151, R199). -/
theorem readOutDeliversEveryPixel : Obligations.ReadOutDeliversEveryPixel := by
  intro s hc image t
  obtain ⟨length, pixel, r, code, d, frame⟩ := readOut_cases hc
  refine ⟨rfl, rfl, rfl, rfl, length, fun x y hxy => ?_, ?_⟩
  · obtain ⟨w, hw, reads⟩ := pixel x y hxy
    refine ⟨fun c hread => ?_, fun hread => ?_⟩
    · rw [hread] at reads
      exact hw.trans (congrArg some reads)
    · rw [hread] at reads
      obtain ⟨v, hv⟩ := reads
      exact ⟨v, hw.trans (congrArg some hv)⟩
  · rw [show t = withReadResult r code d s from frame]
    rfl

end

section
/-! The host's grid of tiles and its captures (spec/43_host_pipeline.md rules R195 to R199): in
which cell a pixel lies, what PAINT of one cell and the painting pass leave at each pixel, and what
a published capture has done before its read-out. -/

namespace Sys2Proof.Machine

open Sys2Proof.Safety

/-- The host's layout is one that the block's fields hold (R195, R196). -/
structure GridFits (p : HostParams) (rows : Nat) : Prop where
  scale_pos : 0 < hostScale p
  scale_le : hostScale p ≤ 255
  width_lt : hostWidth p < 2 ^ 16
  height_lt : rows * 8 * hostScale p < 2 ^ 16

/-- The number of the grid cell in which pixel `(x, y)` lies. -/
def gridCell (p : HostParams) (x y : Nat) : Nat :=
  y / (8 * hostScale p) * p.tilesPerRow + x / (8 * hostScale p)

/-- The colour that a tile gives the pixel `(x, y)` of its cell (R135). -/
def gridColour (c : HostConfig) (pal : Vector Palette 2) (tile : Vector Shade 64) (x y : Nat) :
    Rgb :=
  palEntry pal c.sel
    (tile.get ⟨y / hostScale c.params % 8 * 8 + x / hostScale c.params % 8, by omega⟩)

/-- An idle block with the canvas of rule R196. -/
structure GridCanvas (p : HostParams) (rows : Nat) (s : State) : Prop where
  idle : s.cmdReg = none
  width : s.canvasW.toNat = hostWidth p
  height : s.canvasH.toNat = rows * 8 * hostScale p
  wf : Memory.wf s.fb = true

/-- Along one axis, a pixel lies in cell `g` exactly when it lies in the cell's extent. -/
theorem cell_coordinate_iff {n : Nat} (hn : 0 < n) (g a : Nat) :
    a / (8 * n) = g ↔ g * 8 * n ≤ a ∧ a < g * 8 * n + 8 * n := by
  rw [Nat.div_eq_iff (by omega), Nat.mul_assoc]
  have : 0 < 8 * n := by omega
  omega

/-- The logical pixel of its cell in whose block the pixel lies. -/
theorem cell_block {n : Nat} (hn : 0 < n) {g a : Nat} (h : a / (8 * n) = g) :
    ∃ d < n, a = (g * 8 + a / n % 8) * n + d := by
  refine ⟨a % n, Nat.mod_lt a hn, ?_⟩
  have outer : a / n / 8 = g := by rw [Nat.div_div_eq_div_mul, Nat.mul_comm, h]
  have block : g * 8 + a / n % 8 = a / n := by omega
  rw [block, Nat.div_add_mod']

section
variable {p : HostParams} {rows : Nat} (fits : GridFits p rows)
include fits

theorem GridFits.tilesPerRow_pos : 0 < p.tilesPerRow := by
  rcases Nat.eq_zero_or_pos p.tilesPerRow with h | h
  · have := fits.scale_pos
    rw [hostScale, h, Nat.mul_zero, Nat.div_zero] at this
    omega
  · exact h

/-- A length that stands in front of the scaled tile size is bounded with it. -/
theorem GridFits.lt_of_scaled {n : Nat} (h : n * 8 * hostScale p < 2 ^ 16) : n < 2 ^ 16 := by
  have pos := fits.scale_pos
  have bound : n * 1 ≤ n * (8 * hostScale p) := Nat.mul_le_mul_left n (by omega)
  rw [Nat.mul_assoc] at h
  omega

variable {s : State} (canvas : GridCanvas p rows s) {x y : Nat} (hxy : s.hasPixel x y = true)
include canvas hxy

/-- A pixel of the canvas lies in a column and a row of the grid. -/
theorem GridCanvas.column_row :
    x / (8 * hostScale p) < p.tilesPerRow ∧ y / (8 * hostScale p) < rows := by
  obtain ⟨hx, hy⟩ := (hasPixel_iff s x y).1 hxy
  rw [canvas.width, hostWidth] at hx
  rw [canvas.height] at hy
  constructor <;> rw [Nat.div_lt_iff_lt_mul (by have := fits.scale_pos; omega), ← Nat.mul_assoc]
  exacts [hx, hy]

theorem GridCanvas.gridCell_lt : gridCell p x y < rows * p.tilesPerRow := by
  obtain ⟨hcol, hrow⟩ := canvas.column_row fits hxy
  calc gridCell p x y < y / (8 * hostScale p) * p.tilesPerRow + p.tilesPerRow :=
        Nat.add_lt_add_left hcol _
    _ = (y / (8 * hostScale p) + 1) * p.tilesPerRow := (Nat.succ_mul _ _).symm
    _ ≤ rows * p.tilesPerRow := Nat.mul_le_mul_right _ hrow

/-- A pixel's cell is numbered by its row and column (R198). -/
theorem GridCanvas.gridCell_eq_iff (t : Nat) :
    gridCell p x y = t ↔
      x / (8 * hostScale p) = t % p.tilesPerRow ∧ y / (8 * hostScale p) = t / p.tilesPerRow := by
  obtain ⟨hcol, -⟩ := canvas.column_row fits hxy
  rw [gridCell]
  constructor
  · rintro rfl
    rw [Nat.mul_add_mod_self_right, Nat.mod_eq_of_lt hcol, Nat.add_comm,
      Nat.add_mul_div_right _ _ fits.tilesPerRow_pos, Nat.div_eq_of_lt hcol, Nat.zero_add]
    exact ⟨rfl, rfl⟩
  · rintro ⟨ex, ey⟩
    rw [ex, ey, Nat.div_add_mod']

end

/-! ### PAINT of one cell (R198) -/

section
variable {c : HostConfig} {rows : Nat} (fits : GridFits c.params rows) {s : State}
  (canvas : GridCanvas c.params rows s) {t : Nat} (ht : t < rows * c.params.tilesPerRow)
include fits ht

/-- The fields of the host's PAINT hold the cell's column, its row and the scale. -/
theorem tilePaint_fields :
    (BitVec.ofNat 16 (t % c.params.tilesPerRow)).toNat = t % c.params.tilesPerRow ∧
      (BitVec.ofNat 16 (t / c.params.tilesPerRow)).toNat = t / c.params.tilesPerRow ∧
      (BitVec.ofNat 8 (hostScale c.params)).toNat = hostScale c.params := by
  have hcol := Nat.mod_lt t fits.tilesPerRow_pos
  have hcols := fits.lt_of_scaled (n := c.params.tilesPerRow) fits.width_lt
  have hrow : t / c.params.tilesPerRow < rows :=
    Nat.div_lt_of_lt_mul (by rwa [Nat.mul_comm])
  have hrows := fits.lt_of_scaled fits.height_lt
  have hscale := fits.scale_le
  simp only [BitVec.toNat_ofNat]
  refine ⟨Nat.mod_eq_of_lt ?_, Nat.mod_eq_of_lt ?_, Nat.mod_eq_of_lt ?_⟩ <;> omega

/-- The state after the tile is painted into cell `t`. -/
def paintCell (c : HostConfig) (t : Nat) (s : State) : State :=
  paintTile c.sel (BitVec.ofNat 16 (t % c.params.tilesPerRow))
    (BitVec.ofNat 16 (t / c.params.tilesPerRow))
    (BitVec.ofNat 8 (hostScale c.params)) (BitVec.ofNat 8 (hostScale c.params)) s

include canvas

/-- Every cell of the grid lies inside the canvas. -/
theorem tilePaint_inside :
    rectInside (BitVec.ofNat 16 (t % c.params.tilesPerRow))
      (BitVec.ofNat 16 (t / c.params.tilesPerRow)) (BitVec.ofNat 8 (hostScale c.params))
      (BitVec.ofNat 8 (hostScale c.params)) s.canvasW s.canvasH = true := by
  obtain ⟨ecol, erow, escale⟩ := tilePaint_fields fits ht
  have inside (g n : Nat) (h : g < n) :
      g * 8 * hostScale c.params + 8 * hostScale c.params ≤ n * 8 * hostScale c.params := by
    have := Nat.mul_le_mul_right (8 * hostScale c.params) (Nat.succ_le_of_lt h)
    rwa [Nat.succ_mul, ← Nat.mul_assoc, ← Nat.mul_assoc] at this
  rw [rectInside_iff, ecol, erow, escale, canvas.width, canvas.height]
  exact ⟨inside _ _ (Nat.mod_lt t fits.tilesPerRow_pos),
    inside _ _ (Nat.div_lt_of_lt_mul (by rwa [Nat.mul_comm]))⟩

theorem hostExec_tilePaint (hv : s.tileValid = true) :
    hostExec (tilePaint c t) s = finish .ok (paintCell c t s) := by
  obtain ⟨-, -, escale⟩ := tilePaint_fields fits ht
  have nonzero : BitVec.ofNat 8 (hostScale c.params) ≠ 0 := fun e => by
    have := fits.scale_pos
    rw [e] at escale
    exact absurd escale.symm (by simpa using Nat.ne_of_gt this)
  rw [hostExec_eq_effect (decode_encode _) canvas.idle]
  exact effect_paint_inside nonzero nonzero hv (tilePaint_inside fits canvas ht) c.sel

/-- Painting cell `t` gives its pixels the tile's colours and leaves all others (R135). -/
theorem fbRead_paintCell {x y : Nat} (hxy : s.hasPixel x y = true) :
    fbRead (paintCell c t s) x y =
      if gridCell c.params x y = t then .defined (gridColour c s.pal s.tile x y)
      else fbRead s x y := by
  have inside := tilePaint_inside fits canvas ht
  obtain ⟨ecol, erow, escale⟩ := tilePaint_fields fits ht
  have hx := ((hasPixel_iff s x y).1 hxy).1
  have cell := canvas.gridCell_eq_iff fits hxy t
  split
  · next h =>
    obtain ⟨hcol, hrow⟩ := cell.1 h
    refine fbRead_paintTile_in_block inside canvas.wf c.sel hx
      (r := ⟨y / hostScale c.params % 8, by omega⟩)
      (c := ⟨x / hostScale c.params % 8, by omega⟩) ?_ ?_
    · rw [erow, escale]
      exact cell_block fits.scale_pos hrow
    · rw [ecol, escale]
      exact cell_block fits.scale_pos hcol
  · next h =>
    refine fbRead_paintTile_outside inside canvas.wf c.sel hx fun hin => h (cell.2 ?_)
    rw [ecol, erow, escale] at hin
    obtain ⟨xlo, xhi, ylo, yhi⟩ := hin
    exact ⟨(cell_coordinate_iff fits.scale_pos _ _).2 ⟨xlo, xhi⟩,
      (cell_coordinate_iff fits.scale_pos _ _).2 ⟨ylo, yhi⟩⟩

end

/-! ### The painting pass (R198) -/

/-- What the painting pass from valid-tile counter `k` on, with the tiles still to come, makes of
`s`: it paints their cells and writes nothing else but what a record writes. -/
structure PaintsFrom (c : HostConfig) (k : Nat) (tiles : List (Vector Shade 64)) (s v : State) :
    Prop where
  frame : forgetRecord v = forgetRecord { s with fb := v.fb }
  wf : Memory.wf v.fb = true
  kept : ∀ x y, s.hasPixel x y = true → gridCell c.params x y < k → fbRead v x y = fbRead s x y
  painted : ∀ x y tile, s.hasPixel x y = true → k ≤ gridCell c.params x y →
    tiles[gridCell c.params x y - k]? = some tile →
    fbRead v x y = .defined (gridColour c s.pal tile x y)

theorem paintsFrom_nil (c : HostConfig) (k : Nat) {s : State} (hwf : Memory.wf s.fb = true) :
    PaintsFrom c k [] s s :=
  ⟨rfl, hwf, fun _ _ _ _ => rfl, fun _ _ _ _ _ h => by cases h⟩

/-- What records write is seen neither by the canvas nor by the palette. -/
theorem PaintsFrom.of_forgetRecord_eq {c : HostConfig} {k : Nat} {tiles : List (Vector Shade 64)}
    {s u v : State} (h : PaintsFrom c k tiles u v) (hu : forgetRecord u = forgetRecord s) :
    PaintsFrom c k tiles s v := by
  have forgotten : PaintsFrom c k tiles (forgetRecord u) v :=
    ⟨h.frame, h.wf, h.kept, h.painted⟩
  rw [hu] at forgotten
  exact ⟨forgotten.frame, forgotten.wf, forgotten.kept, forgotten.painted⟩

theorem GridCanvas.of_forgetRecord_eq {p : HostParams} {rows : Nat} {s u : State}
    (h : GridCanvas p rows s) (hu : forgetRecord u = forgetRecord s) : GridCanvas p rows u := by
  have forgotten : GridCanvas p rows (forgetRecord s) := ⟨h.idle, h.width, h.height, h.wf⟩
  rw [← hu] at forgotten
  exact ⟨forgotten.idle, forgotten.width, forgotten.height, forgotten.wf⟩

/-- The tiles to come are painted one after another. -/
theorem PaintsFrom.cons {c : HostConfig} {k : Nat} {tile : Vector Shade 64}
    {tiles : List (Vector Shade 64)} {s u v : State} (one : PaintsFrom c k [tile] s u)
    (later : PaintsFrom c (k + 1) tiles u v) : PaintsFrom c k (tile :: tiles) s v := by
  have samePixels : ∀ x y, u.hasPixel x y = s.hasPixel x y := fun x y =>
    congrArg (fun z => z.hasPixel x y) one.frame
  have samePal : u.pal = s.pal := congrArg (fun z => z.pal) one.frame
  refine ⟨?frame, later.wf, fun x y hxy hlt => ?kept, fun x y tile' hxy hge htile => ?painted⟩
  case frame => exact later.frame.trans (congrArg (fun z => { z with fb := v.fb }) one.frame)
  case kept =>
    exact (later.kept x y ((samePixels x y).trans hxy) (by omega)).trans (one.kept x y hxy hlt)
  case painted =>
    have hxy' := (samePixels x y).trans hxy
    rcases Nat.eq_or_lt_of_le hge with here | after
    · rw [← here, Nat.sub_self] at htile
      rw [later.kept x y hxy' (by omega)]
      exact one.painted x y tile' hxy hge (by rw [← here, Nat.sub_self]; exact htile)
    · rw [← samePal]
      refine later.painted x y tile' hxy' after ?_
      rwa [show gridCell c.params x y - k = gridCell c.params x y - (k + 1) + 1 by omega,
        List.getElem?_cons_succ] at htile

section
variable {c : HostConfig} {rows : Nat} (fits : GridFits c.params rows) {s : State}
  (canvas : GridCanvas c.params rows s)
include fits canvas

/-- The host paints a valid tile into the cell of its number if the grid has that cell (R198). -/
theorem paintsFrom_one (hv : s.tileValid = true) (k : Nat) :
    PaintsFrom c k [s.tile] s
      (if k < rows * c.params.tilesPerRow then hostExec (tilePaint c k) s else s) := by
  split
  · next hk =>
    rw [hostExec_tilePaint fits canvas hk hv]
    refine ⟨rfl, Memory.overlay_wf (paintCells_wf (tilePaint_inside fits canvas hk)) canvas.wf,
      fun x y hxy hlt => ?_, fun x y tile hxy hge htile => ?_⟩
    · exact (fbRead_paintCell fits canvas hk hxy).trans (if_neg (by omega))
    · obtain ⟨hlast, rfl⟩ := List.getElem?_eq_some_iff.1 htile
      have here : gridCell c.params x y = k := by
        rw [List.length_singleton] at hlast
        omega
      rw [List.getElem_singleton]
      exact (fbRead_paintCell fits canvas hk hxy).trans (if_pos here)
  · next hk =>
    refine ⟨rfl, canvas.wf, fun _ _ _ _ => rfl, fun x y _ hxy hge _ => ?_⟩
    have := canvas.gridCell_lt fits hxy
    omega

/-- A record of the painting pass that is valid paints its tile. -/
theorem paintsFrom_record {r : List CodeUnit} {tile : Vector Shade 64}
    (hr : sourceDecode r = some tile) (k : Nat) :
    (hostRecord r s).1 = 0 ∧ PaintsFrom c k [tile] s
      (if k < rows * c.params.tilesPerRow then hostExec (tilePaint c k) (hostRecord r s).2
        else (hostRecord r s).2) := by
  have same := hostRecord_forgetRecord r canvas.idle
  have one := paintsFrom_one fits (canvas.of_forgetRecord_eq same)
    (by rw [hostRecord_of_sourceDecode hr canvas.idle]) k
  have decoded : (hostRecord r s).2.tile = tile := by
    rw [hostRecord_of_sourceDecode hr canvas.idle]
  rw [decoded] at one
  exact ⟨by rw [hostRecord_of_sourceDecode hr canvas.idle], one.of_forgetRecord_eq same⟩

end

theorem PaintsFrom.gridCanvas {c : HostConfig} {rows k : Nat} {tiles : List (Vector Shade 64)}
    {s v : State} (h : PaintsFrom c k tiles s v) (canvas : GridCanvas c.params rows s) :
    GridCanvas c.params rows v where
  idle := (congrArg State.cmdReg h.frame).trans canvas.idle
  width := (congrArg (fun z => z.canvasW.toNat) h.frame).trans canvas.width
  height := (congrArg (fun z => z.canvasH.toNat) h.frame).trans canvas.height
  wf := h.wf

/-- The painting pass paints the tiles of the valid records in order (R198). -/
theorem paintingPass_paintsFrom {c : HostConfig} {rows : Nat} (fits : GridFits c.params rows)
    (rs : List (List CodeUnit)) (k : Nat) {s : State} (canvas : GridCanvas c.params rows s) :
    PaintsFrom c k (rs.filterMap sourceDecode) s
      (paintingPass c (rows * c.params.tilesPerRow) k rs s) := by
  induction rs generalizing k s with
  | nil => exact paintsFrom_nil c k canvas.wf
  | cons r rs ih =>
    rw [paintingPass]
    dsimp only
    cases hr : sourceDecode r with
    | none =>
      obtain ⟨code, same⟩ :=
        hostRecord_of_invalid (show validRecord r = false by rw [validRecord, hr]; rfl) canvas.idle
      rw [if_pos code, List.filterMap_cons_none hr]
      exact (ih k (canvas.of_forgetRecord_eq same)).of_forgetRecord_eq same
    | some tile =>
      obtain ⟨code, one⟩ := paintsFrom_record fits canvas hr k
      rw [if_neg (not_not_intro code), List.filterMap_cons_some hr]
      exact one.cons (ih (k + 1) (one.gridCanvas canvas))

/-- With a tile for every cell, the pass from the first one on gives every pixel its colour. -/
theorem PaintsFrom.complete {c : HostConfig} {rows : Nat} (fits : GridFits c.params rows)
    {tiles : List (Vector Shade 64)} {s v : State} (h : PaintsFrom c 0 tiles s v)
    (canvas : GridCanvas c.params rows s) (enough : rows * c.params.tilesPerRow ≤ tiles.length)
    {x y : Nat} (hxy : s.hasPixel x y = true) :
    ∃ tile, tiles[gridCell c.params x y]? = some tile ∧
      fbRead v x y = .defined (gridColour c s.pal tile x y) := by
  have cell := canvas.gridCell_lt fits hxy
  have htile := List.getElem?_eq_getElem (Nat.lt_of_lt_of_le cell enough)
  exact ⟨_, htile, h.painted x y _ hxy (Nat.zero_le _) htile⟩

/-! ### From the capture event to publishing (R191 to R199) -/

/-- What the host's ALLOC leaves when it does not end with BADDIM (R131). -/
theorem effect_alloc_of_fits {w h : Dim} {s : State}
    (hcode : (effect (.alloc w h) s).lastCode ≠ ResultCode.baddim.bits) :
    effect (.alloc w h) s =
      { s with canvasW := w, canvasH := h, fb := (effect (.alloc w h) s).fb, lastCode := 0 } := by
  rcases effect_alloc_cases w h s with ⟨_, e⟩ | ⟨_, rfl, rfl, e⟩ | ⟨_, _, e⟩
  · rw [e] at hcode
    exact absurd rfl hcode
  all_goals
    rw [e]
    rfl

/-- The canvas before the painting pass: `s` with the grid's canvas, filled. -/
def filledCanvas (c : HostConfig) (n : Nat) (s : State) : State :=
  { s with
    canvasW := BitVec.ofNat 16 (hostWidth c.params)
    canvasH := BitVec.ofNat 16 (hostHeight c.params n)
    fb := Memory.filled
      ((BitVec.ofNat 16 (hostWidth c.params)).toNat *
        (BitVec.ofNat 16 (hostHeight c.params n)).toNat)
      (palEntry c.palettes c.sel c.params.fillShade) }

/-- The host's ALLOC, when it does not end with BADDIM, and its FILL (R196, R197). -/
theorem hostExec_fill_alloc {c : HostConfig} {n : Nat} {s : State} (hc : s.cmdReg = none)
    (hcode : (effect (.alloc (BitVec.ofNat 16 (hostWidth c.params))
      (BitVec.ofNat 16 (hostHeight c.params n))) s).lastCode ≠ ResultCode.baddim.bits) :
    forgetRecord (hostExec (backgroundFill c)
        (effect (.alloc (BitVec.ofNat 16 (hostWidth c.params))
          (BitVec.ofNat 16 (hostHeight c.params n))) s)) =
      forgetRecord (filledCanvas c n s) := by
  have alloc := effect_alloc_of_fits hcode
  rw [hostExec_eq_effect (decode_encode _) (by rw [alloc]; exact hc), alloc]
  rfl

/-- What a published rendering has done before its read-out (R196 to R199). -/
theorem renderCanvas_published {c : HostConfig} {n : Nat} {rs : List (List CodeUnit)} {s t : State}
    {image : HostImage} (hc : s.cmdReg = none)
    (h : renderCanvas c n rs s = .published image t) :
    hostWidth c.params < 2 ^ 16 ∧ hostHeight c.params n < 2 ^ 16 ∧
      ∃ u, forgetRecord u = forgetRecord (filledCanvas c n s) ∧
        readOut (hostExec (.materialize c.params.dpiX c.params.dpiY)
          (paintingPass c (hostRows c.params n * c.params.tilesPerRow) 0 rs u)) = (image, t) := by
  rw [renderCanvas] at h
  split at h
  · next dims =>
    dsimp only at h
    rw [hostExec_eq_effect (decode_encode _) hc, readLastCode_eq] at h
    split at h
    · cases h
    · next code =>
      rw [publish] at h
      obtain ⟨rfl, rfl⟩ := RenderOutcome.published.inj h
      exact ⟨dims.1, dims.2, _, hostExec_fill_alloc hc code, rfl⟩
  · cases h

theorem filledCanvas_gridCanvas {c : HostConfig} {n : Nat} {s : State} (hc : s.cmdReg = none)
    (hw : hostWidth c.params < 2 ^ 16) (hh : hostHeight c.params n < 2 ^ 16) :
    GridCanvas c.params (hostRows c.params n) (filledCanvas c n s) where
  idle := hc
  width := (BitVec.toNat_ofNat ..).trans (Nat.mod_eq_of_lt hw)
  height := (BitVec.toNat_ofNat ..).trans (Nat.mod_eq_of_lt hh)
  wf := Memory.filled_wf _ _

/-- The state in which a published capture is declared: the grid's canvas, every pixel in the colour
of the valid tile in whose cell it lies, and `ERRSTAT` as it was. -/
structure PaintedCapture (c : HostConfig) (tiles : List (Vector Shade 64)) (s v : State) :
    Prop where
  canvas : GridCanvas c.params (tiles.length / c.params.tilesPerRow) v
  errstat : v.errstat = s.errstat
  pixel : ∀ x y, v.hasPixel x y = true → ∃ tile, tiles[gridCell c.params x y]? = some tile ∧
    fbRead v x y = .defined (gridColour c s.pal tile x y)

/-- A published capture has painted its valid records and then declared and read the image (R194 to
R199). -/
theorem capture_published {c : HostConfig} {blob : List CodeUnit} {s t : State} {image : HostImage}
    (hc : s.cmdReg = none) (h : capture c blob s = .published image t) :
    ∃ v, PaintedCapture c ((splitLines blob).filterMap sourceDecode) s v ∧
      readOut (effect (.materialize c.params.dpiX c.params.dpiY) v) = (image, t) := by
  rw [capture] at h
  split at h
  swap
  · cases h
  next valid =>
  dsimp only at h
  have counted := countingPass_forgetRecord (candidates blob) hc
  have idle := idle_of_forgetRecord_eq counted.symm hc
  rw [← filterMap_candidates]
  rw [countingPass_count _ hc] at h
  obtain ⟨hw, hh, u, hu, read⟩ := renderCanvas_published idle h
  rw [hostParamsValid, Bool.and_eq_true, Bool.and_eq_true, decide_eq_true_eq, decide_eq_true_eq,
    decide_eq_true_eq] at valid
  obtain ⟨⟨-, spos⟩, sle⟩ := valid
  have fits : GridFits c.params _ := ⟨spos, sle, hw, hh⟩
  have ready := (filledCanvas_gridCanvas idle hw hh).of_forgetRecord_eq hu
  have paints := paintingPass_paintsFrom fits (candidates blob) 0 ready
  have final := paints.gridCanvas ready
  refine ⟨_, ⟨final, ?errstat, fun x y hxy => ?pixel⟩, ?read⟩
  case read => rwa [hostExec_eq_effect (decode_encode _) final.idle] at read
  case errstat =>
    exact (congrArg (fun z => z.errstat) paints.frame).trans <|
      (congrArg (fun z => z.errstat) hu).trans (congrArg (fun z => z.errstat) counted)
  case pixel =>
    have samePixels : u.hasPixel x y = true :=
      (congrArg (fun z => z.hasPixel x y) paints.frame).symm.trans hxy
    have samePal : u.pal = s.pal :=
      (congrArg (fun z => z.pal) hu).trans (congrArg (fun z => z.pal) counted)
    rw [← samePal]
    exact paints.complete fits ready (Nat.div_mul_le_self _ _) samePixels

end Sys2Proof.Machine
end

section
open Sys2Proof Sys2Proof.Machine Sys2Proof.Safety

/-- Settles O59: a published capture reads out a canvas whose every pixel has the colour of the tile
in its cell; MATERIALIZE and the read-out leave size and pixels as they are (R149, R199). -/
theorem capturePaintsEveryCell : Obligations.CapturePaintsEveryCell := by
  intro c blob s t image hc h tiles S
  obtain ⟨v, painted, read⟩ := capture_published hc h
  have idle := painted.canvas.idle
  obtain ⟨length, words, r, code, d, frame⟩ :=
    readOut_cases (s := effect (.materialize c.params.dpiX c.params.dpiY) v) idle
  rw [read] at length words frame
  obtain rfl : t = _ := frame
  have declared {α : Type} (field : HostImage → α) : field image = field (readOut _).1 :=
    congrArg (fun q => field q.1) read.symm
  refine ⟨painted.canvas.width, painted.canvas.height, rfl, rfl, declared HostImage.width,
    declared HostImage.height, declared HostImage.dpiX, declared HostImage.dpiY, length,
    fun x y hxy => ?pixel⟩
  case pixel =>
    obtain ⟨tile, htile, hread⟩ := painted.pixel x y hxy
    obtain ⟨w, hw, reads⟩ := words x y hxy
    refine ⟨tile, htile, hread, hw.trans (congrArg some ?_)⟩
    have same : fbRead (effect (.materialize c.params.dpiX c.params.dpiY) v) x y = _ := hread
    rwa [same] at reads

/-- Settles O60: neither a record's codes nor the host's commands on a grid that fits raise an
error, and the host waits before every issue (R196, R198, R245). -/
theorem publishedCaptureRaisesNoError : Obligations.PublishedCaptureRaisesNoError := by
  intro c blob s t image hc h
  obtain ⟨v, painted, read⟩ := capture_published hc h
  obtain ⟨-, -, r, code, d, frame⟩ :=
    readOut_cases (s := effect (.materialize c.params.dpiX c.params.dpiY) v) painted.canvas.idle
  rw [read] at frame
  have kept : t.errstat = s.errstat := (congrArg (fun z => z.errstat) frame).trans painted.errstat
  exact ⟨kept, kept.trans⟩

/-- Settles O55: the layout's arithmetic with the source's numbers (R195, R196, R198). -/
theorem hostLayoutExample : Obligations.HostLayoutExample := by
  intro c htiles hwidth
  have scale : hostScale c.params = 3 := by rw [hostScale, htiles, hwidth]
  refine ⟨?_, scale, ?_, ?_, ?_, fun t _ => ?_⟩
  · rw [hostParamsValid, scale, htiles, hwidth]; rfl
  · rw [hostRows, htiles]
  · rw [hostWidth, scale, htiles]
  · rw [hostHeight, hostRows, scale, htiles]
  · rw [tilePaint, scale, htiles]; rfl

end
